-- ==== Sys2Proof/Word.lean ====
section
/-! DEFINITION. The word types of the block: 32-bit registers and command words, 8-bit bytes, 7-bit chip register
addresses (00_scope.md R8 to R10, 20_memory.md R60). Bit 0 is the least significant bit of every value. -/

namespace Sys2Proof

/-- A 32-bit word: a shadow register, a delay register, a command word or a command data word. -/
abbrev Word := BitVec 32

/-- A byte of a datagram, of the wire or of the CRC engine. -/
abbrev Byte := BitVec 8

/-- A register address of the chip, 7 bits (20_memory.md R60). -/
abbrev Addr := BitVec 7

end Sys2Proof
end

