-- ==== Sys2Proof/Config.lean ====
section
/-! DEFINITION. What is fixed for the block (00_scope.md R5) and the parameters it leaves open (R7). The open ones
are a record of plain data that State carries and no step writes, but for taking the next entry of `slack`. -/

namespace Sys2Proof.Config

/-- `BAUD`, bits a second (R5). -/
def baud : Nat := 115200

/-- `SYNC`, the first byte of a datagram (R5). -/
def sync : Byte := 0x05

/-- `SLAVE_ADDR`, the second byte of a datagram (R5, 42_transport.md R200). -/
def slaveAddr : Byte := 0x00

/-- `WRITE_FLAG`, ORed into the register byte (R5). -/
def writeFlag : Byte := 0x80

/-- `CRC_POLY` (R5). -/
def crcPoly : Byte := 0x07

/-- `CRC_INIT` (R5). -/
def crcInit : Byte := 0x00

/-- `SETTLE_RESET_US`, 3 ms in microseconds (R5). -/
def settleResetUs : Word := 3000

/-- `ADDR_GCONF` (R5). -/
def addrGconf : Addr := 0x00

/-- `ADDR_IHOLD_IRUN` (R5). -/
def addrIholdIrun : Addr := 0x10

/-- `ADDR_VACTUAL` (R5). -/
def addrVactual : Addr := 0x22

/-- `ADDR_CHOPCONF` (R5). -/
def addrChopconf : Addr := 0x6C

/-- `DATA_BITS` of a character (R5). -/
def dataBits : Nat := 8

/-- `DGRAM_LEN`, bytes in a datagram (R5). -/
def dgramLen : Nat := 8

/-- A positive fraction. -/
structure PosFrac where
  num : ℕ+
  den : ℕ+
  deriving DecidableEq, Repr

/-- A non-negative fraction. -/
structure Frac where
  num : Nat
  den : ℕ+
  deriving DecidableEq, Repr

/-- The parameters R7 leaves open, and the durations the transmitter takes within them (42_transport.md R241, R242;
logs 4, 18). A **unit** of the wire is one bit period of a character, or one whole `Idle` event. -/
structure TimeBase where
  /-- `F_CLK` in Hz, any positive value. -/
  fClk : PosFrac
  /-- `BAUD_TOL`, any non-negative value. -/
  baudTol : Frac
  /-- `DELAY_TOL_US`, any non-negative value. -/
  delayTolUs : Frac
  /-- How many clock edges over the fewest the coming units last, as far as the tolerance lets them: one entry a unit,
  oldest first. No entry: the fewest edges. -/
  slack : List Nat
  deriving DecidableEq, Repr

/-- `n` edges last `1 / BAUD` seconds within the relative tolerance `BAUD_TOL` (42_transport.md R241):
`(1 - BAUD_TOL) / BAUD ≤ n / F_CLK ≤ (1 + BAUD_TOL) / BAUD`. -/
abbrev TimeBase.bitWithin (tb : TimeBase) (n : Nat) : Prop :=
  tb.fClk.num * tb.baudTol.den ≤ n * baud * tb.fClk.den * tb.baudTol.den + tb.fClk.num * tb.baudTol.num ∧
    n * baud * tb.fClk.den * tb.baudTol.den ≤ tb.fClk.num * tb.baudTol.den + tb.fClk.num * tb.baudTol.num

/-- `n` edges last at least `d` microseconds and at most `d + DELAY_TOL_US` (42_transport.md R242):
`d ≤ 1000000 * n / F_CLK ≤ d + DELAY_TOL_US`. -/
abbrev TimeBase.idleWithin (tb : TimeBase) (d n : Nat) : Prop :=
  d * tb.fClk.num ≤ n * 1000000 * tb.fClk.den ∧
    n * 1000000 * tb.fClk.den * tb.delayTolUs.den ≤ (d * tb.delayTolUs.den + tb.delayTolUs.num) * tb.fClk.num

end Sys2Proof.Config
end

