-- ==== Sys2Proof/Syntax.lean ====
section
/-! DEFINITION. The commands of the block as abstract syntax: one constructor for each row of the opcode table
(30_encoding.md R82). A command is the pair of a command word and a data word (R80); a constructor carries every
bit of the pair that the row leaves free: `t` is `cmd_word[15]`, `a` is `cmd_word[14:8]`, `d` is `cmd_data`. -/

namespace Sys2Proof

/-- A command as it stands on the command port: `cmd_word` and `cmd_data` (30_encoding.md R80). -/
structure Command where
  word : Word
  data : Word
  deriving DecidableEq, Repr

/-- The error codes a rejected command can report (60_exceptions.md R250). -/
inductive ErrCode where
  /-- Reserved `OP`, or a 1 in a must-be-zero bit. -/
  | eOpcode
  /-- `ADDR` not accepted by the command. -/
  | eAddr
  /-- `SEL` not defined for the register `ADDR` selects. -/
  | eField
  /-- `cmd_data` out of range. -/
  | eRange
  deriving DecidableEq, Repr

/-- The commands. `d` is carried by the commands that ignore it too (R89), so that no bit is lost. -/
inductive Instr where
  /-- NOP (42_transport.md R218). -/
  | nop (d : Word)
  /-- SETF.GCONF.I_SCALE_ANALOG (40_register_model.md R130): analog current scaling. -/
  | setfGconfIScaleAnalog (t : Bool) (d : Word)
  /-- SETF.GCONF.INTERNAL_RSENSE (40_register_model.md R131): internal sense resistor. -/
  | setfGconfInternalRsense (t : Bool) (d : Word)
  /-- SETF.GCONF.EN_SPREADCYCLE (40_register_model.md R132): spread-cycle enable. -/
  | setfGconfEnSpreadcycle (t : Bool) (d : Word)
  /-- SETF.GCONF.SHAFT (40_register_model.md R133): shaft/direction inversion. -/
  | setfGconfShaft (t : Bool) (d : Word)
  /-- SETF.GCONF.INDEX_OTPW (40_register_model.md R134): index-output selector (first). -/
  | setfGconfIndexOtpw (t : Bool) (d : Word)
  /-- SETF.GCONF.INDEX_STEP (40_register_model.md R135): index-output selector (second). -/
  | setfGconfIndexStep (t : Bool) (d : Word)
  /-- SETF.GCONF.PDN_DISABLE (40_register_model.md R136): step/dir disable. -/
  | setfGconfPdnDisable (t : Bool) (d : Word)
  /-- SETF.GCONF.MSTEP_REG_SELECT (40_register_model.md R137): microstep-source select. -/
  | setfGconfMstepRegSelect (t : Bool) (d : Word)
  /-- SETF.GCONF.MULTISTEP_FILT (40_register_model.md R138): multistep filter. -/
  | setfGconfMultistepFilt (t : Bool) (d : Word)
  /-- SETF.GCONF.TEST_MODE (40_register_model.md R139): test mode. -/
  | setfGconfTestMode (t : Bool) (d : Word)
  /-- SETF.IHOLD_IRUN.IHOLD (40_register_model.md R140): hold current, 0 to 31. -/
  | setfIholdIrunIhold (t : Bool) (d : Word)
  /-- SETF.IHOLD_IRUN.IRUN (40_register_model.md R141): run current, 0 to 31. -/
  | setfIholdIrunIrun (t : Bool) (d : Word)
  /-- SETF.IHOLD_IRUN.IHOLDDELAY (40_register_model.md R142): hold delay. -/
  | setfIholdIrunIholddelay (t : Bool) (d : Word)
  /-- SETF.CHOPCONF.TOFF (40_register_model.md R143): off-time. -/
  | setfChopconfToff (t : Bool) (d : Word)
  /-- SETF.CHOPCONF.HSTRT (40_register_model.md R144): hysteresis start. -/
  | setfChopconfHstrt (t : Bool) (d : Word)
  /-- SETF.CHOPCONF.HEND (40_register_model.md R145): hysteresis end. -/
  | setfChopconfHend (t : Bool) (d : Word)
  /-- SETF.CHOPCONF.TBL (40_register_model.md R146): blank time. -/
  | setfChopconfTbl (t : Bool) (d : Word)
  /-- SETF.CHOPCONF.VSENSE (40_register_model.md R147): sense-voltage scale. -/
  | setfChopconfVsense (t : Bool) (d : Word)
  /-- SETF.CHOPCONF.MRES (40_register_model.md R148): microstep resolution, 0=256 microsteps .. 8=full step. -/
  | setfChopconfMres (t : Bool) (d : Word)
  /-- SETF.CHOPCONF.INTPOL (40_register_model.md R149): interpolation enable. -/
  | setfChopconfIntpol (t : Bool) (d : Word)
  /-- SETF.CHOPCONF.DEDGE (40_register_model.md R150): step-edge mode. -/
  | setfChopconfDedge (t : Bool) (d : Word)
  /-- SETF.CHOPCONF.DISS2G (40_register_model.md R151): short-to-ground protection disable (first). -/
  | setfChopconfDiss2g (t : Bool) (d : Word)
  /-- SETF.CHOPCONF.DISS2VS (40_register_model.md R152): short-to-ground protection disable (second). -/
  | setfChopconfDiss2vs (t : Bool) (d : Word)
  /-- WRREG (42_transport.md R210). -/
  | wrreg (a : Addr) (d : Word)
  /-- SEND (42_transport.md R211). -/
  | send (a : Addr) (d : Word)
  /-- CRC.CLR (41_crc_engine.md R185). -/
  | crcClr (d : Word)
  /-- CRC.BYTE (41_crc_engine.md R186). -/
  | crcByte (d : Word)
  /-- TXB (42_transport.md R213). -/
  | txb (d : Word)
  /-- SETSETTLE (42_transport.md R215). -/
  | setsettle (d : Word)
  /-- SETGAP (42_transport.md R216). -/
  | setgap (d : Word)
  /-- WAIT (42_transport.md R217). -/
  | wait (d : Word)
  deriving DecidableEq, Repr

end Sys2Proof
end

