-- ==== Sys2Proof/WellFormed.lean ====
section
/-! DEFINITION. Which instructions have an encoding that `Decode` accepts: the address checks of
30_encoding.md R91 (20_memory.md R61). A data word is never part of well-formedness: its range is checked when the
command is performed (R92). -/

namespace Sys2Proof

/-- The addresses that select a shadow register: those SETF and SEND accept (20_memory.md R61). -/
def isShadowAddr (a : Addr) : Bool :=
  a == Config.addrGconf || a == Config.addrIholdIrun || a == Config.addrChopconf

/-- The valid chip register addresses: those WRREG accepts (20_memory.md R61). -/
def isChipAddr (a : Addr) : Bool :=
  isShadowAddr a || a == Config.addrVactual

/-- The instruction has an encoding that `Decode` accepts. -/
def Instr.wellFormed : Instr → Bool
  | .wrreg a _ => isChipAddr a
  | .send a _ => isShadowAddr a
  | .nop _ => true
  | .crcClr _ => true
  | .crcByte _ => true
  | .txb _ => true
  | .setsettle _ => true
  | .setgap _ => true
  | .wait _ => true
  | .setfGconfIScaleAnalog _ _ => true
  | .setfGconfInternalRsense _ _ => true
  | .setfGconfEnSpreadcycle _ _ => true
  | .setfGconfShaft _ _ => true
  | .setfGconfIndexOtpw _ _ => true
  | .setfGconfIndexStep _ _ => true
  | .setfGconfPdnDisable _ _ => true
  | .setfGconfMstepRegSelect _ _ => true
  | .setfGconfMultistepFilt _ _ => true
  | .setfGconfTestMode _ _ => true
  | .setfIholdIrunIhold _ _ => true
  | .setfIholdIrunIrun _ _ => true
  | .setfIholdIrunIholddelay _ _ => true
  | .setfChopconfToff _ _ => true
  | .setfChopconfHstrt _ _ => true
  | .setfChopconfHend _ _ => true
  | .setfChopconfTbl _ _ => true
  | .setfChopconfVsense _ _ => true
  | .setfChopconfMres _ _ => true
  | .setfChopconfIntpol _ _ => true
  | .setfChopconfDedge _ _ => true
  | .setfChopconfDiss2g _ _ => true
  | .setfChopconfDiss2vs _ _ => true

end Sys2Proof
end

