-- ==== Sys2Proof/Decode.lean ====
section
/-! DEFINITION. Decoding a command word (30_encoding.md R91), total, rejecting by error code; the opcode table as
data; and the encoder, written from the encodings of 30_encoding.md R80 to R86 and the rules of the commands. -/

namespace Sys2Proof

/-- `cmd_word[3:0]` (30_encoding.md R80). -/
def opOf (w : Word) : BitVec 4 := w.extractLsb' 0 4

/-- `cmd_word[7:4]`. -/
def selOf (w : Word) : BitVec 4 := w.extractLsb' 4 4

/-- `cmd_word[14:8]`. -/
def addrOf (w : Word) : Addr := w.extractLsb' 8 7

/-- `cmd_word[15]`. -/
def tOf (w : Word) : Bool := w.getLsbD 15

/-- `cmd_word[31:16]`, zero in every command. -/
def highOf (w : Word) : BitVec 16 := w.extractLsb' 16 16

/-- The field setter of GCONF that `SEL` selects (40_register_model.md R121). -/
def decodeSetfGconf (sel : BitVec 4) (t : Bool) (d : Word) : Option Instr :=
  match sel.toNat with
  | 0 => some (.setfGconfIScaleAnalog t d)
  | 1 => some (.setfGconfInternalRsense t d)
  | 2 => some (.setfGconfEnSpreadcycle t d)
  | 3 => some (.setfGconfShaft t d)
  | 4 => some (.setfGconfIndexOtpw t d)
  | 5 => some (.setfGconfIndexStep t d)
  | 6 => some (.setfGconfPdnDisable t d)
  | 7 => some (.setfGconfMstepRegSelect t d)
  | 8 => some (.setfGconfMultistepFilt t d)
  | 9 => some (.setfGconfTestMode t d)
  | _ => none

/-- The field setter of IHOLD_IRUN that `SEL` selects (40_register_model.md R121). -/
def decodeSetfIholdIrun (sel : BitVec 4) (t : Bool) (d : Word) : Option Instr :=
  match sel.toNat with
  | 0 => some (.setfIholdIrunIhold t d)
  | 1 => some (.setfIholdIrunIrun t d)
  | 2 => some (.setfIholdIrunIholddelay t d)
  | _ => none

/-- The field setter of CHOPCONF that `SEL` selects (40_register_model.md R121). -/
def decodeSetfChopconf (sel : BitVec 4) (t : Bool) (d : Word) : Option Instr :=
  match sel.toNat with
  | 0 => some (.setfChopconfToff t d)
  | 1 => some (.setfChopconfHstrt t d)
  | 2 => some (.setfChopconfHend t d)
  | 3 => some (.setfChopconfTbl t d)
  | 4 => some (.setfChopconfVsense t d)
  | 5 => some (.setfChopconfMres t d)
  | 6 => some (.setfChopconfIntpol t d)
  | 7 => some (.setfChopconfDedge t d)
  | 8 => some (.setfChopconfDiss2g t d)
  | 9 => some (.setfChopconfDiss2vs t d)
  | _ => none

/-- The SETF command of a pair `(ADDR, SEL)`; none where the pair is not in `Layout` (R83, R91). -/
def decodeSetf (a : Addr) (sel : BitVec 4) (t : Bool) (d : Word) : Option Instr :=
  if a = Config.addrGconf then decodeSetfGconf sel t d
  else if a = Config.addrIholdIrun then decodeSetfIholdIrun sel t d
  else if a = Config.addrChopconf then decodeSetfChopconf sel t d
  else none

/-- What `Decode` answers: a row of the opcode table with its operands, or a rejection. -/
inductive DecodeResult where
  | instr (i : Instr)
  | reject (c : ErrCode)
  deriving DecidableEq, Repr

/-- The row of a word that passed the must-be-zero checks and whose `OP` is not SETF, WRREG or SEND (R82). -/
def decodePlain (op : BitVec 4) (d : Word) : DecodeResult :=
  match op.toNat with
  | 0x0 => .instr (.nop d)
  | 0x4 => .instr (.crcClr d)
  | 0x5 => .instr (.crcByte d)
  | 0x6 => .instr (.txb d)
  | 0x7 => .instr (.setsettle d)
  | 0x8 => .instr (.setgap d)
  | 0x9 => .instr (.wait d)
  | _ => .reject .eOpcode

/-- `Decode(w)` (30_encoding.md R91), with the data word beside it: the checks in the rule's order, the first that
applies decides. -/
def decode (c : Command) : DecodeResult :=
  let w := c.word
  let op := opOf w
  let sel := selOf w
  let a := addrOf w
  let t := tOf w
  if highOf w ≠ 0 then .reject .eOpcode
  else if 0xA ≤ op.toNat then .reject .eOpcode
  else if op ≠ 0x1 ∧ (sel ≠ 0 ∨ t = true) then .reject .eOpcode
  else if op ≠ 0x1 ∧ op ≠ 0x2 ∧ op ≠ 0x3 ∧ a ≠ 0 then .reject .eOpcode
  else if (op = 0x1 ∨ op = 0x3) ∧ isShadowAddr a = false then .reject .eAddr
  else if op = 0x2 ∧ isChipAddr a = false then .reject .eAddr
  else if op = 0x1 then
    match decodeSetf a sel t c.data with
    | some i => .instr i
    | none => .reject .eField
  else if op = 0x2 then .instr (.wrreg a c.data)
  else if op = 0x3 then .instr (.send a c.data)
  else decodePlain op c.data

/-- The word with these fields and zeros in `[31:16]` (30_encoding.md R80). -/
def mkWord (t : Bool) (a : Addr) (sel op : BitVec 4) : Word :=
  ((BitVec.ofBool t).setWidth 32 <<< 15) ||| (a.setWidth 32 <<< 8) ||| (sel.setWidth 32 <<< 4) ||| op.setWidth 32

/-- The words of an instruction (30_encoding.md R82 to R86, R94). -/
def encode : Instr → Command
  | .nop d => ⟨mkWord false 0 0 0x0, d⟩
  | .setfGconfIScaleAnalog t d => ⟨mkWord t 0x00 0 0x1, d⟩
  | .setfGconfInternalRsense t d => ⟨mkWord t 0x00 1 0x1, d⟩
  | .setfGconfEnSpreadcycle t d => ⟨mkWord t 0x00 2 0x1, d⟩
  | .setfGconfShaft t d => ⟨mkWord t 0x00 3 0x1, d⟩
  | .setfGconfIndexOtpw t d => ⟨mkWord t 0x00 4 0x1, d⟩
  | .setfGconfIndexStep t d => ⟨mkWord t 0x00 5 0x1, d⟩
  | .setfGconfPdnDisable t d => ⟨mkWord t 0x00 6 0x1, d⟩
  | .setfGconfMstepRegSelect t d => ⟨mkWord t 0x00 7 0x1, d⟩
  | .setfGconfMultistepFilt t d => ⟨mkWord t 0x00 8 0x1, d⟩
  | .setfGconfTestMode t d => ⟨mkWord t 0x00 9 0x1, d⟩
  | .setfIholdIrunIhold t d => ⟨mkWord t 0x10 0 0x1, d⟩
  | .setfIholdIrunIrun t d => ⟨mkWord t 0x10 1 0x1, d⟩
  | .setfIholdIrunIholddelay t d => ⟨mkWord t 0x10 2 0x1, d⟩
  | .setfChopconfToff t d => ⟨mkWord t 0x6C 0 0x1, d⟩
  | .setfChopconfHstrt t d => ⟨mkWord t 0x6C 1 0x1, d⟩
  | .setfChopconfHend t d => ⟨mkWord t 0x6C 2 0x1, d⟩
  | .setfChopconfTbl t d => ⟨mkWord t 0x6C 3 0x1, d⟩
  | .setfChopconfVsense t d => ⟨mkWord t 0x6C 4 0x1, d⟩
  | .setfChopconfMres t d => ⟨mkWord t 0x6C 5 0x1, d⟩
  | .setfChopconfIntpol t d => ⟨mkWord t 0x6C 6 0x1, d⟩
  | .setfChopconfDedge t d => ⟨mkWord t 0x6C 7 0x1, d⟩
  | .setfChopconfDiss2g t d => ⟨mkWord t 0x6C 8 0x1, d⟩
  | .setfChopconfDiss2vs t d => ⟨mkWord t 0x6C 9 0x1, d⟩
  | .wrreg a d => ⟨mkWord false a 0 0x2, d⟩
  | .send a d => ⟨mkWord false a 0 0x3, d⟩
  | .crcClr d => ⟨mkWord false 0 0 0x4, d⟩
  | .crcByte d => ⟨mkWord false 0 0 0x5, d⟩
  | .txb d => ⟨mkWord false 0 0 0x6, d⟩
  | .setsettle d => ⟨mkWord false 0 0 0x7, d⟩
  | .setgap d => ⟨mkWord false 0 0 0x8, d⟩
  | .wait d => ⟨mkWord false 0 0 0x9, d⟩

/-- One row of spec/opcode_table.json. -/
structure OpRow where
  mnemonic : String
  mask : Word
  pattern : Word
  deriving DecidableEq, Repr

/-- `(w & mask) == match` of 30_encoding.md R91. -/
def OpRow.fits (r : OpRow) (w : Word) : Bool := w &&& r.mask == r.pattern

/-- The rows of the GCONF setters. -/
def opcodesGconf : List OpRow :=
  [ ⟨"SETF.GCONF.I_SCALE_ANALOG", 0xFFFF7FFF, 0x00000001⟩,
    ⟨"SETF.GCONF.INTERNAL_RSENSE", 0xFFFF7FFF, 0x00000011⟩,
    ⟨"SETF.GCONF.EN_SPREADCYCLE", 0xFFFF7FFF, 0x00000021⟩,
    ⟨"SETF.GCONF.SHAFT", 0xFFFF7FFF, 0x00000031⟩,
    ⟨"SETF.GCONF.INDEX_OTPW", 0xFFFF7FFF, 0x00000041⟩,
    ⟨"SETF.GCONF.INDEX_STEP", 0xFFFF7FFF, 0x00000051⟩,
    ⟨"SETF.GCONF.PDN_DISABLE", 0xFFFF7FFF, 0x00000061⟩,
    ⟨"SETF.GCONF.MSTEP_REG_SELECT", 0xFFFF7FFF, 0x00000071⟩,
    ⟨"SETF.GCONF.MULTISTEP_FILT", 0xFFFF7FFF, 0x00000081⟩,
    ⟨"SETF.GCONF.TEST_MODE", 0xFFFF7FFF, 0x00000091⟩ ]

/-- The rows of the IHOLD_IRUN setters. -/
def opcodesIholdIrun : List OpRow :=
  [ ⟨"SETF.IHOLD_IRUN.IHOLD", 0xFFFF7FFF, 0x00001001⟩,
    ⟨"SETF.IHOLD_IRUN.IRUN", 0xFFFF7FFF, 0x00001011⟩,
    ⟨"SETF.IHOLD_IRUN.IHOLDDELAY", 0xFFFF7FFF, 0x00001021⟩ ]

/-- The rows of the CHOPCONF setters. -/
def opcodesChopconf : List OpRow :=
  [ ⟨"SETF.CHOPCONF.TOFF", 0xFFFF7FFF, 0x00006C01⟩,
    ⟨"SETF.CHOPCONF.HSTRT", 0xFFFF7FFF, 0x00006C11⟩,
    ⟨"SETF.CHOPCONF.HEND", 0xFFFF7FFF, 0x00006C21⟩,
    ⟨"SETF.CHOPCONF.TBL", 0xFFFF7FFF, 0x00006C31⟩,
    ⟨"SETF.CHOPCONF.VSENSE", 0xFFFF7FFF, 0x00006C41⟩,
    ⟨"SETF.CHOPCONF.MRES", 0xFFFF7FFF, 0x00006C51⟩,
    ⟨"SETF.CHOPCONF.INTPOL", 0xFFFF7FFF, 0x00006C61⟩,
    ⟨"SETF.CHOPCONF.DEDGE", 0xFFFF7FFF, 0x00006C71⟩,
    ⟨"SETF.CHOPCONF.DISS2G", 0xFFFF7FFF, 0x00006C81⟩,
    ⟨"SETF.CHOPCONF.DISS2VS", 0xFFFF7FFF, 0x00006C91⟩ ]

/-- The rows of the other commands. -/
def opcodesOther : List OpRow :=
  [ ⟨"NOP", 0xFFFFFFFF, 0x00000000⟩,
    ⟨"WRREG", 0xFFFF80FF, 0x00000002⟩,
    ⟨"SEND", 0xFFFF80FF, 0x00000003⟩,
    ⟨"CRC.CLR", 0xFFFFFFFF, 0x00000004⟩,
    ⟨"CRC.BYTE", 0xFFFFFFFF, 0x00000005⟩,
    ⟨"TXB", 0xFFFFFFFF, 0x00000006⟩,
    ⟨"SETSETTLE", 0xFFFFFFFF, 0x00000007⟩,
    ⟨"SETGAP", 0xFFFFFFFF, 0x00000008⟩,
    ⟨"WAIT", 0xFFFFFFFF, 0x00000009⟩ ]

/-- The opcode table, 32 rows. -/
def opcodeTable : List OpRow :=
  opcodesGconf ++ opcodesIholdIrun ++ opcodesChopconf ++ opcodesOther

/-- The mnemonic of an instruction's row. -/
def Instr.mnemonic : Instr → String
  | .nop _ => "NOP"
  | .wrreg _ _ => "WRREG"
  | .send _ _ => "SEND"
  | .crcClr _ => "CRC.CLR"
  | .crcByte _ => "CRC.BYTE"
  | .txb _ => "TXB"
  | .setsettle _ => "SETSETTLE"
  | .setgap _ => "SETGAP"
  | .wait _ => "WAIT"
  | .setfGconfIScaleAnalog _ _ => "SETF.GCONF.I_SCALE_ANALOG"
  | .setfGconfInternalRsense _ _ => "SETF.GCONF.INTERNAL_RSENSE"
  | .setfGconfEnSpreadcycle _ _ => "SETF.GCONF.EN_SPREADCYCLE"
  | .setfGconfShaft _ _ => "SETF.GCONF.SHAFT"
  | .setfGconfIndexOtpw _ _ => "SETF.GCONF.INDEX_OTPW"
  | .setfGconfIndexStep _ _ => "SETF.GCONF.INDEX_STEP"
  | .setfGconfPdnDisable _ _ => "SETF.GCONF.PDN_DISABLE"
  | .setfGconfMstepRegSelect _ _ => "SETF.GCONF.MSTEP_REG_SELECT"
  | .setfGconfMultistepFilt _ _ => "SETF.GCONF.MULTISTEP_FILT"
  | .setfGconfTestMode _ _ => "SETF.GCONF.TEST_MODE"
  | .setfIholdIrunIhold _ _ => "SETF.IHOLD_IRUN.IHOLD"
  | .setfIholdIrunIrun _ _ => "SETF.IHOLD_IRUN.IRUN"
  | .setfIholdIrunIholddelay _ _ => "SETF.IHOLD_IRUN.IHOLDDELAY"
  | .setfChopconfToff _ _ => "SETF.CHOPCONF.TOFF"
  | .setfChopconfHstrt _ _ => "SETF.CHOPCONF.HSTRT"
  | .setfChopconfHend _ _ => "SETF.CHOPCONF.HEND"
  | .setfChopconfTbl _ _ => "SETF.CHOPCONF.TBL"
  | .setfChopconfVsense _ _ => "SETF.CHOPCONF.VSENSE"
  | .setfChopconfMres _ _ => "SETF.CHOPCONF.MRES"
  | .setfChopconfIntpol _ _ => "SETF.CHOPCONF.INTPOL"
  | .setfChopconfDedge _ _ => "SETF.CHOPCONF.DEDGE"
  | .setfChopconfDiss2g _ _ => "SETF.CHOPCONF.DISS2G"
  | .setfChopconfDiss2vs _ _ => "SETF.CHOPCONF.DISS2VS"

/-- The command whose 64 bits are `w`, numbered as the opcode table numbers them: `cmd_word` is bits 31..0,
`cmd_data` bits 63..32 (log 17). Bits from `nbits` up are 0. -/
def tableCommand (nbits w : Nat) : Command :=
  ⟨BitVec.ofNat 32 (w % 2 ^ nbits), BitVec.ofNat 32 (w % 2 ^ nbits / 2 ^ 32)⟩

/-- The instruction the decoder reads from the table word `w`. -/
def decodeTableWord (nbits w : Nat) : Option Instr :=
  match decode (tableCommand nbits w) with
  | .instr i => some i
  | .reject _ => none

end Sys2Proof
end

