-- ==== Sys2Proof/Machine/State.lean ====
section
/-! DEFINITION. The state of the block (10_state.md R24 to R35, R38), the host's coming inputs, the clock record, and
the state right after reset. Plain data throughout. -/

namespace Sys2Proof.Machine

/-- Why the machine stops. No constructor: the block has no trap and nothing stops it (60_exceptions.md R255, R263);
a command it cannot perform is rejected, which is a next state (R252). Nobody raises a fault; safe (log 21). -/
inductive Fault where
  deriving DecidableEq, Repr

/-- Why the model has no meaning for an instruction. -/
inductive Refusal where
  /-- Raised by an arm of `exec` whose instruction has no meaning yet. No arm does; safe (log 21). -/
  | notModelled (mnemonic : String)
  deriving DecidableEq, Repr

/-- `PHASE` (10_state.md R35). -/
inductive Phase where
  | idle
  | busy
  deriving DecidableEq, Repr

/-- A wire event (00_scope.md R12): one character, or the line idle for `d` microseconds. -/
inductive WireEvent where
  | frame (b : Byte)
  | idle (d : Word)
  deriving DecidableEq, Repr

/-- The input pins at one rising edge of `clk` (10_state.md R20). -/
structure Pins where
  rstN : Bool
  cmdValid : Bool
  cmd : Command
  deriving DecidableEq, Repr

/-- What the host does next (10_state.md R21, 70_reset_and_hazards.md R297; log 2). -/
inductive HostInput where
  /-- These pins at exactly one rising edge. -/
  | edge (p : Pins)
  /-- With `rst_n = 1`, this command presented at every edge until one accepts it. -/
  | offer (c : Command)
  deriving DecidableEq, Repr

/-- The byte-addressed storage: (address, byte) pairs, addresses rising, no byte equal to what an unlisted address
reads as. It holds `DGRAM` (00_scope.md R11; log 15). -/
abbrev Memory := List Host.Cell

/-- The state. INVENTORY.md names the rule of every field. -/
structure State where
  /-- `GCONF_SH`. -/
  gconf : Word
  /-- `IHOLD_IRUN_SH`. -/
  iholdIrun : Word
  /-- `CHOPCONF_SH`. -/
  chopconf : Word
  /-- `SETTLE_US`. -/
  settleUs : Word
  /-- `GAP_US`. -/
  gapUs : Word
  /-- `CRC_ACC`. -/
  crcAcc : Byte
  /-- `ERR`. -/
  err : BitVec 4
  /-- `DGRAM[0..7]`. -/
  dgram : Memory
  /-- `PHASE`. -/
  phase : Phase
  /-- `PEND`, the event on the line first. -/
  pend : List WireEvent
  /-- Which bit period of the character on the line: 0 start, 1 to 8 data, 9 stop; 0 in an `Idle`. -/
  bitIdx : Nat
  /-- The delay counter: edges the unit on the line has lasted. -/
  timer : Nat
  /-- `rst_n` at the last rising edge. -/
  rstnLast : Bool
  /-- The output trace: the events finished on the line, oldest first (log 8). Always a finite list: the infinite trace
  of a run without end is the limit of its finite ones (log 24). -/
  trace : List WireEvent
  /-- What the host does at the coming edges (log 2), a finite list (log 24). -/
  inputs : List HostInput
  /-- The open parameters and the durations within them (log 4). -/
  timing : Config.TimeBase
  deriving DecidableEq, Repr

/-- The state right after reset (10_state.md R38). The last three fields and the two counters are named in
logs 2, 4, 6, 7 and 8. -/
def State.reset : State where
  gconf := 0
  iholdIrun := 0
  chopconf := 0
  settleUs := Config.settleResetUs
  gapUs := 0
  crcAcc := Config.crcInit
  err := 0
  dgram := []
  phase := .idle
  pend := []
  bitIdx := 0
  timer := 0
  rstnLast := false
  trace := []
  inputs := []
  timing := ⟨⟨115200, 1⟩, ⟨0, 1⟩, ⟨0, 1⟩, []⟩

end Sys2Proof.Machine
end

