-- ==== Sys2Proof/Machine/Crc.lean ====
section
/-! DEFINITION. The CRC function of the block (41_crc_engine.md R180, R181), used by the datagram encoder and by the
host accumulator, which share no state (10_state.md R32). -/

namespace Sys2Proof.Machine

/-- One data bit of `Crc8Step` (R180): shift left, and XOR with the polynomial where the top bit and the data bit
differ. -/
def crcBit (c : Byte) (dataBit : Bool) : Byte :=
  if c.getLsbD 7 != dataBit then (c <<< 1) ^^^ Config.crcPoly else c <<< 1

/-- `Crc8Step` over the data bits of `b` from bit `j` on, `n` of them. -/
def crcBits (c b : Byte) (j : Nat) : Nat → Byte
  | 0 => c
  | n + 1 => crcBits (crcBit c (b.getLsbD j)) b (j + 1) n

/-- `Crc8Step(c, b)` (R180): the 8 bits of `b`, least significant first. -/
def crc8Step (c b : Byte) : Byte := crcBits c b 0 8

/-- `Crc8(b0, ..., b(n-1))` (R181). -/
def crc8 (bytes : List Byte) : Byte := bytes.foldl crc8Step Config.crcInit

end Sys2Proof.Machine
end

