-- ==== Sys2Proof/Machine/Flags.lean ====
section
/-! DEFINITION. The block has no condition codes (10_state.md R37). Its one status element is `ERR` (R33), and this is
how a rejection writes it (60_exceptions.md R250, R252). -/

namespace Sys2Proof.Machine

/-- The code a cause of rejection writes (60_exceptions.md R250). -/
def errValue : ErrCode → BitVec 4
  | .eOpcode => 1
  | .eAddr => 2
  | .eField => 3
  | .eRange => 4

/-- `ERR` after a rejection: the first code since reset stays (10_state.md R33, 60_exceptions.md R252). -/
def errAfter (err : BitVec 4) (c : ErrCode) : BitVec 4 :=
  if err = 0 then errValue c else err

end Sys2Proof.Machine
end

