-- ==== Sys2Proof/Machine/Memory.lean ====
section
/-! DEFINITION. Byte storage in canonical form: reading, writing, and the form itself. `DGRAM` is its one user
(00_scope.md R11, 10_state.md R34). -/

namespace Sys2Proof.Machine

/-- What an unlisted address reads as: the reset contents of `DGRAM` (10_state.md R38). -/
def Memory.unlisted : Byte := 0x00

/-- The byte at an address: `MemRead(a, 1)` (00_scope.md R11). -/
def Memory.read : Memory → Nat → Byte
  | [], _ => Memory.unlisted
  | (b, v) :: m, a => if a = b then v else Memory.read m a

/-- Drop what is listed at an address. -/
def Memory.erase : Memory → Nat → Memory
  | [], _ => []
  | (b, v) :: m, a => if a = b then Memory.erase m a else (b, v) :: Memory.erase m a

/-- List a byte at its place among rising addresses. -/
def Memory.insert : Memory → Nat → Byte → Memory
  | [], a, v => [(a, v)]
  | (b, u) :: m, a, v => if a < b then (a, v) :: (b, u) :: m else (b, u) :: Memory.insert m a v

/-- Write one byte: `MemWrite(a, 1, v)` (00_scope.md R11). Writing the unlisted byte removes the entry. -/
def Memory.write (m : Memory) (a : Nat) (v : Byte) : Memory :=
  if v = Memory.unlisted then Memory.erase m a else Memory.insert (Memory.erase m a) a v

/-- Write bytes at rising addresses from `a` up. -/
def Memory.writeFrom (m : Memory) (a : Nat) : List Byte → Memory
  | [] => m
  | v :: vs => Memory.writeFrom (Memory.write m a v) (a + 1) vs

/-- The canonical form: addresses of `DGRAM` only, strictly rising, none listed with the unlisted byte. -/
abbrev Memory.wf (m : Memory) : Prop :=
  m.Pairwise (fun c c' => c.1 < c'.1) ∧ ∀ c ∈ m, c.1 < Config.dgramLen ∧ c.2 ≠ Memory.unlisted

end Sys2Proof.Machine
end

