-- ==== Sys2Proof/Machine/Operands.lean ====
section
/-! DEFINITION. The operand forms: the shadow register an address selects (10_state.md R24), the layout of the 23
fields (40_register_model.md R121), and byte operands (30_encoding.md R88). -/

namespace Sys2Proof.Machine

/-- The three shadow registers (10_state.md R24). -/
inductive ShadowReg where
  | gconf
  | iholdIrun
  | chopconf
  deriving DecidableEq, Repr

/-- The address that selects a shadow register (10_state.md R24). -/
def ShadowReg.addr : ShadowReg → Addr
  | .gconf => Config.addrGconf
  | .iholdIrun => Config.addrIholdIrun
  | .chopconf => Config.addrChopconf

/-- The shadow register an address selects; none for 0x22 and every other address (10_state.md R24). -/
def shadowAt (a : Addr) : Option ShadowReg :=
  if a = Config.addrGconf then some .gconf
  else if a = Config.addrIholdIrun then some .iholdIrun
  else if a = Config.addrChopconf then some .chopconf
  else none

/-- A row of `Layout` (40_register_model.md R121): bits `[lo+width-1:lo]` of `reg`, largest legal value `max`. -/
structure FieldRow where
  reg : ShadowReg
  sel : BitVec 4
  lo : Nat
  width : Nat
  max : Word
  deriving DecidableEq, Repr

/-- I_SCALE_ANALOG: bits `[0:0]` of GCONF (R121). -/
def Layout.gconfIScaleAnalog : FieldRow := ⟨.gconf, 0, 0, 1, 1⟩

/-- INTERNAL_RSENSE: bits `[1:1]` of GCONF (R121). -/
def Layout.gconfInternalRsense : FieldRow := ⟨.gconf, 1, 1, 1, 1⟩

/-- EN_SPREADCYCLE: bits `[2:2]` of GCONF (R121). -/
def Layout.gconfEnSpreadcycle : FieldRow := ⟨.gconf, 2, 2, 1, 1⟩

/-- SHAFT: bits `[3:3]` of GCONF (R121). -/
def Layout.gconfShaft : FieldRow := ⟨.gconf, 3, 3, 1, 1⟩

/-- INDEX_OTPW: bits `[4:4]` of GCONF (R121). -/
def Layout.gconfIndexOtpw : FieldRow := ⟨.gconf, 4, 4, 1, 1⟩

/-- INDEX_STEP: bits `[5:5]` of GCONF (R121). -/
def Layout.gconfIndexStep : FieldRow := ⟨.gconf, 5, 5, 1, 1⟩

/-- PDN_DISABLE: bits `[6:6]` of GCONF (R121). -/
def Layout.gconfPdnDisable : FieldRow := ⟨.gconf, 6, 6, 1, 1⟩

/-- MSTEP_REG_SELECT: bits `[7:7]` of GCONF (R121). -/
def Layout.gconfMstepRegSelect : FieldRow := ⟨.gconf, 7, 7, 1, 1⟩

/-- MULTISTEP_FILT: bits `[8:8]` of GCONF (R121). -/
def Layout.gconfMultistepFilt : FieldRow := ⟨.gconf, 8, 8, 1, 1⟩

/-- TEST_MODE: bits `[9:9]` of GCONF (R121). -/
def Layout.gconfTestMode : FieldRow := ⟨.gconf, 9, 9, 1, 1⟩

/-- IHOLD: bits `[4:0]` of IHOLD_IRUN (R121). -/
def Layout.iholdIrunIhold : FieldRow := ⟨.iholdIrun, 0, 0, 5, 31⟩

/-- IRUN: bits `[12:8]` of IHOLD_IRUN (R121). -/
def Layout.iholdIrunIrun : FieldRow := ⟨.iholdIrun, 1, 8, 5, 31⟩

/-- IHOLDDELAY: bits `[19:16]` of IHOLD_IRUN (R121). -/
def Layout.iholdIrunIholddelay : FieldRow := ⟨.iholdIrun, 2, 16, 4, 15⟩

/-- TOFF: bits `[3:0]` of CHOPCONF (R121). -/
def Layout.chopconfToff : FieldRow := ⟨.chopconf, 0, 0, 4, 15⟩

/-- HSTRT: bits `[6:4]` of CHOPCONF (R121). -/
def Layout.chopconfHstrt : FieldRow := ⟨.chopconf, 1, 4, 3, 7⟩

/-- HEND: bits `[10:7]` of CHOPCONF (R121). -/
def Layout.chopconfHend : FieldRow := ⟨.chopconf, 2, 7, 4, 15⟩

/-- TBL: bits `[16:15]` of CHOPCONF (R121). -/
def Layout.chopconfTbl : FieldRow := ⟨.chopconf, 3, 15, 2, 3⟩

/-- VSENSE: bits `[17:17]` of CHOPCONF (R121). -/
def Layout.chopconfVsense : FieldRow := ⟨.chopconf, 4, 17, 1, 1⟩

/-- MRES: bits `[27:24]` of CHOPCONF (R121). -/
def Layout.chopconfMres : FieldRow := ⟨.chopconf, 5, 24, 4, 8⟩

/-- INTPOL: bits `[28:28]` of CHOPCONF (R121). -/
def Layout.chopconfIntpol : FieldRow := ⟨.chopconf, 6, 28, 1, 1⟩

/-- DEDGE: bits `[29:29]` of CHOPCONF (R121). -/
def Layout.chopconfDedge : FieldRow := ⟨.chopconf, 7, 29, 1, 1⟩

/-- DISS2G: bits `[30:30]` of CHOPCONF (R121). -/
def Layout.chopconfDiss2g : FieldRow := ⟨.chopconf, 8, 30, 1, 1⟩

/-- DISS2VS: bits `[31:31]` of CHOPCONF (R121). -/
def Layout.chopconfDiss2vs : FieldRow := ⟨.chopconf, 9, 31, 1, 1⟩

/-- The rows of GCONF, by `SEL`. -/
def Layout.gconf : List FieldRow :=
  [ Layout.gconfIScaleAnalog,
    Layout.gconfInternalRsense,
    Layout.gconfEnSpreadcycle,
    Layout.gconfShaft,
    Layout.gconfIndexOtpw,
    Layout.gconfIndexStep,
    Layout.gconfPdnDisable,
    Layout.gconfMstepRegSelect,
    Layout.gconfMultistepFilt,
    Layout.gconfTestMode ]

/-- The rows of IHOLD_IRUN, by `SEL`. -/
def Layout.iholdIrun : List FieldRow :=
  [ Layout.iholdIrunIhold,
    Layout.iholdIrunIrun,
    Layout.iholdIrunIholddelay ]

/-- The rows of CHOPCONF, by `SEL`. -/
def Layout.chopconf : List FieldRow :=
  [ Layout.chopconfToff,
    Layout.chopconfHstrt,
    Layout.chopconfHend,
    Layout.chopconfTbl,
    Layout.chopconfVsense,
    Layout.chopconfMres,
    Layout.chopconfIntpol,
    Layout.chopconfDedge,
    Layout.chopconfDiss2g,
    Layout.chopconfDiss2vs ]

/-- `Layout`, all 23 rows (R121). -/
def Layout.all : List FieldRow := Layout.gconf ++ Layout.iholdIrun ++ Layout.chopconf

/-- `mask(w) = 2^w - 1` (00_scope.md R9). -/
def mask (w : Nat) : Word := BitVec.ofNat 32 (2 ^ w - 1)

/-- The field's bits, `mask(w) << lo` (40_register_model.md R123). -/
def FieldRow.bits (f : FieldRow) : Word := mask f.width <<< f.lo

/-- A register value with the field set to `d` (40_register_model.md R123). -/
def FieldRow.set (f : FieldRow) (x d : Word) : Word := (x &&& ~~~f.bits) ||| (d <<< f.lo)

/-- `Field(a, sel)`, the field's value in a register value (40_register_model.md R125). -/
def FieldRow.get (f : FieldRow) (x : Word) : Word := (x >>> f.lo) &&& mask f.width

/-- `cmd_data[31:8] = 0`: the data word is a legal byte operand (30_encoding.md R88). -/
def isByteOperand (d : Word) : Bool := d.extractLsb' 8 24 == 0

/-- `cmd_data[7:0]`. -/
def byteOperand (d : Word) : Byte := d.extractLsb' 0 8

end Sys2Proof.Machine
end

