-- ==== Sys2Proof/Machine/Ops.lean ====
section
/-! DEFINITION. The operations the commands share: `x[a]` (00_scope.md R11), rejection (60_exceptions.md R252), the
datagram (42_transport.md R200), emitting events (30_encoding.md R95) and sending a datagram (42_transport.md R201). -/

namespace Sys2Proof.Machine

/-- `x[a]` for the address of `r` (00_scope.md R11). -/
def State.readShadow (s : State) : ShadowReg → Word
  | .gconf => s.gconf
  | .iholdIrun => s.iholdIrun
  | .chopconf => s.chopconf

/-- `x[a] <- v` for the address of `r` (00_scope.md R11). -/
def State.writeShadow (s : State) (r : ShadowReg) (v : Word) : State :=
  match r with
  | .gconf => { s with gconf := v }
  | .iholdIrun => { s with iholdIrun := v }
  | .chopconf => { s with chopconf := v }

/-- `DGRAM[i]` (00_scope.md R11). -/
def State.dgramByte (s : State) (i : Nat) : Byte := Memory.read s.dgram i

/-- `raise Reject(c)` (60_exceptions.md R252): the first code since reset is recorded, nothing else changes. This is
the block's one way of not performing a command; there is no handler and no return from it (R255). -/
def State.reject (s : State) (c : ErrCode) : State := { s with err := errAfter s.err c }

/-- The seven bytes a datagram's CRC is computed over (42_transport.md R200, 20_memory.md R63). -/
def datagramHead (a : Addr) (v : Word) : List Byte :=
  [ Config.sync,
    Config.slaveAddr,
    a.setWidth 8 ||| Config.writeFlag,
    v.extractLsb' 24 8,
    v.extractLsb' 16 8,
    v.extractLsb' 8 8,
    v.extractLsb' 0 8 ]

/-- The eight bytes of a datagram: the head and its CRC (42_transport.md R200, 41_crc_engine.md R184). -/
def datagram (a : Addr) (v : Word) : List Byte :=
  datagramHead a v ++ [crc8 (datagramHead a v)]

/-- `BuildDatagram(a, v)` (42_transport.md R200). -/
def State.buildDatagram (s : State) (a : Addr) (v : Word) : State :=
  { s with dgram := Memory.writeFrom s.dgram 0 (datagram a v) }

/-- `Emit` appends an event, and nothing for `Idle(0)` (00_scope.md R11, R12): the events of a list that are emitted. -/
def emitted : List WireEvent → List WireEvent
  | [] => []
  | .frame b :: es => .frame b :: emitted es
  | .idle d :: es => if d = 0 then emitted es else .idle d :: emitted es

/-- The end of `Execute` (30_encoding.md R95): a command whose event list is not empty makes the block busy with it.
The transmitter begins with the first event (10_state.md R35). -/
def State.play (s : State) (es : List WireEvent) : State :=
  match emitted es with
  | [] => s
  | e :: rest => { s with phase := .busy, pend := e :: rest, bitIdx := 0, timer := 0 }

/-- The characters of a datagram with the inter-byte delay between them, none after the last (42_transport.md R201). -/
def framesWithGap (gap : Word) : List Byte → List WireEvent
  | [] => []
  | [b] => [.frame b]
  | b :: c :: bs => .frame b :: .idle gap :: framesWithGap gap (c :: bs)

/-- The events of `SendDatagram` (42_transport.md R201). -/
def datagramEvents (gap settle : Word) (bytes : List Byte) : List WireEvent :=
  framesWithGap gap bytes ++ [.idle settle]

/-- `SendDatagram(a, v)` (42_transport.md R201). -/
def State.sendDatagram (s : State) (a : Addr) (v : Word) : State :=
  (s.buildDatagram a v).play (datagramEvents s.gapUs s.settleUs (datagram a v))

end Sys2Proof.Machine
end

