-- ==== Sys2Proof/Machine/CrcEngine.lean ====
section
/-! DEFINITION. The commands of the CRC engine (41_crc_engine.md R185, R186). -/

namespace Sys2Proof.Machine

/-- CRC.CLR (R185). The data word is ignored (30_encoding.md R89). -/
def execCrcClr (_d : Word) (s : State) : Host.Outcome State Fault Refusal :=
  .next { s with crcAcc := 0x00 }

/-- CRC.BYTE (R186). -/
def execCrcByte (d : Word) (s : State) : Host.Outcome State Fault Refusal :=
  if isByteOperand d then .next { s with crcAcc := crc8Step s.crcAcc (byteOperand d) }
  else .next (s.reject .eRange)

end Sys2Proof.Machine
end

