-- ==== Sys2Proof/Machine/Delays.lean ====
section
/-! DEFINITION. The commands that set the delays, WAIT and NOP (42_transport.md R215 to R218). -/

namespace Sys2Proof.Machine

/-- SETSETTLE (R215): every value is accepted. -/
def execSetsettle (d : Word) (s : State) : Host.Outcome State Fault Refusal :=
  .next { s with settleUs := d }

/-- SETGAP (R216): every value is accepted. -/
def execSetgap (d : Word) (s : State) : Host.Outcome State Fault Refusal :=
  .next { s with gapUs := d }

/-- WAIT (R217): the line idle for `d` microseconds; `WAIT 0` emits nothing. -/
def execWait (d : Word) (s : State) : Host.Outcome State Fault Refusal :=
  .next (s.play [.idle d])

/-- NOP (R218). The data word is ignored (30_encoding.md R89). -/
def execNop (_d : Word) (s : State) : Host.Outcome State Fault Refusal :=
  .next s

end Sys2Proof.Machine
end

