-- ==== Sys2Proof/Machine/RegisterModel.lean ====
section
/-! DEFINITION. The 23 field setters (40_register_model.md R123, R130 to R152). -/

namespace Sys2Proof.Machine

/-- `SETF(a, sel, t, d)` (R123): range check, then write the field, then transmit the whole register where `t` says
so, with the new field value (R127). -/
def setField (f : FieldRow) (t : Bool) (d : Word) (s : State) : Host.Outcome State Fault Refusal :=
  if f.max < d then .next (s.reject .eRange)
  else
    let s' := s.writeShadow f.reg (f.set (s.readShadow f.reg) d)
    if t then .next (s'.sendDatagram f.reg.addr (s'.readShadow f.reg)) else .next s'

/-- SETF.GCONF.I_SCALE_ANALOG (R130). -/
def execSetfGconfIScaleAnalog (t : Bool) (d : Word) (s : State) : Host.Outcome State Fault Refusal :=
  setField Layout.gconfIScaleAnalog t d s

/-- SETF.GCONF.INTERNAL_RSENSE (R131). -/
def execSetfGconfInternalRsense (t : Bool) (d : Word) (s : State) : Host.Outcome State Fault Refusal :=
  setField Layout.gconfInternalRsense t d s

/-- SETF.GCONF.EN_SPREADCYCLE (R132). -/
def execSetfGconfEnSpreadcycle (t : Bool) (d : Word) (s : State) : Host.Outcome State Fault Refusal :=
  setField Layout.gconfEnSpreadcycle t d s

/-- SETF.GCONF.SHAFT (R133). -/
def execSetfGconfShaft (t : Bool) (d : Word) (s : State) : Host.Outcome State Fault Refusal :=
  setField Layout.gconfShaft t d s

/-- SETF.GCONF.INDEX_OTPW (R134). -/
def execSetfGconfIndexOtpw (t : Bool) (d : Word) (s : State) : Host.Outcome State Fault Refusal :=
  setField Layout.gconfIndexOtpw t d s

/-- SETF.GCONF.INDEX_STEP (R135). -/
def execSetfGconfIndexStep (t : Bool) (d : Word) (s : State) : Host.Outcome State Fault Refusal :=
  setField Layout.gconfIndexStep t d s

/-- SETF.GCONF.PDN_DISABLE (R136). -/
def execSetfGconfPdnDisable (t : Bool) (d : Word) (s : State) : Host.Outcome State Fault Refusal :=
  setField Layout.gconfPdnDisable t d s

/-- SETF.GCONF.MSTEP_REG_SELECT (R137). -/
def execSetfGconfMstepRegSelect (t : Bool) (d : Word) (s : State) : Host.Outcome State Fault Refusal :=
  setField Layout.gconfMstepRegSelect t d s

/-- SETF.GCONF.MULTISTEP_FILT (R138). -/
def execSetfGconfMultistepFilt (t : Bool) (d : Word) (s : State) : Host.Outcome State Fault Refusal :=
  setField Layout.gconfMultistepFilt t d s

/-- SETF.GCONF.TEST_MODE (R139). -/
def execSetfGconfTestMode (t : Bool) (d : Word) (s : State) : Host.Outcome State Fault Refusal :=
  setField Layout.gconfTestMode t d s

/-- SETF.IHOLD_IRUN.IHOLD (R140). -/
def execSetfIholdIrunIhold (t : Bool) (d : Word) (s : State) : Host.Outcome State Fault Refusal :=
  setField Layout.iholdIrunIhold t d s

/-- SETF.IHOLD_IRUN.IRUN (R141). -/
def execSetfIholdIrunIrun (t : Bool) (d : Word) (s : State) : Host.Outcome State Fault Refusal :=
  setField Layout.iholdIrunIrun t d s

/-- SETF.IHOLD_IRUN.IHOLDDELAY (R142). -/
def execSetfIholdIrunIholddelay (t : Bool) (d : Word) (s : State) : Host.Outcome State Fault Refusal :=
  setField Layout.iholdIrunIholddelay t d s

/-- SETF.CHOPCONF.TOFF (R143). -/
def execSetfChopconfToff (t : Bool) (d : Word) (s : State) : Host.Outcome State Fault Refusal :=
  setField Layout.chopconfToff t d s

/-- SETF.CHOPCONF.HSTRT (R144). -/
def execSetfChopconfHstrt (t : Bool) (d : Word) (s : State) : Host.Outcome State Fault Refusal :=
  setField Layout.chopconfHstrt t d s

/-- SETF.CHOPCONF.HEND (R145). -/
def execSetfChopconfHend (t : Bool) (d : Word) (s : State) : Host.Outcome State Fault Refusal :=
  setField Layout.chopconfHend t d s

/-- SETF.CHOPCONF.TBL (R146). -/
def execSetfChopconfTbl (t : Bool) (d : Word) (s : State) : Host.Outcome State Fault Refusal :=
  setField Layout.chopconfTbl t d s

/-- SETF.CHOPCONF.VSENSE (R147). -/
def execSetfChopconfVsense (t : Bool) (d : Word) (s : State) : Host.Outcome State Fault Refusal :=
  setField Layout.chopconfVsense t d s

/-- SETF.CHOPCONF.MRES (R148). -/
def execSetfChopconfMres (t : Bool) (d : Word) (s : State) : Host.Outcome State Fault Refusal :=
  setField Layout.chopconfMres t d s

/-- SETF.CHOPCONF.INTPOL (R149). -/
def execSetfChopconfIntpol (t : Bool) (d : Word) (s : State) : Host.Outcome State Fault Refusal :=
  setField Layout.chopconfIntpol t d s

/-- SETF.CHOPCONF.DEDGE (R150). -/
def execSetfChopconfDedge (t : Bool) (d : Word) (s : State) : Host.Outcome State Fault Refusal :=
  setField Layout.chopconfDedge t d s

/-- SETF.CHOPCONF.DISS2G (R151). -/
def execSetfChopconfDiss2g (t : Bool) (d : Word) (s : State) : Host.Outcome State Fault Refusal :=
  setField Layout.chopconfDiss2g t d s

/-- SETF.CHOPCONF.DISS2VS (R152). -/
def execSetfChopconfDiss2vs (t : Bool) (d : Word) (s : State) : Host.Outcome State Fault Refusal :=
  setField Layout.chopconfDiss2vs t d s

end Sys2Proof.Machine
end

