-- ==== Sys2Proof/Machine/Transport.lean ====
section
/-! DEFINITION. The commands that send (42_transport.md R210, R211, R213). -/

namespace Sys2Proof.Machine

/-- WRREG (R210): the data word as it is, no shadow written (40_register_model.md R128). `Decode` has checked the
address; an address it does not accept is rejected here with the same code (log 9). -/
def execWrreg (a : Addr) (d : Word) (s : State) : Host.Outcome State Fault Refusal :=
  if isChipAddr a then .next (s.sendDatagram a d) else .next (s.reject .eAddr)

/-- SEND (R211): the shadow register the address selects, through the multiplexer (40_register_model.md R127). The
data word is ignored (30_encoding.md R89). -/
def execSend (a : Addr) (_d : Word) (s : State) : Host.Outcome State Fault Refusal :=
  match shadowAt a with
  | some r => .next (s.sendDatagram a (s.readShadow r))
  | none => .next (s.reject .eAddr)

/-- TXB (R213): one raw byte, then the inter-byte delay. -/
def execTxb (d : Word) (s : State) : Host.Outcome State Fault Refusal :=
  if isByteOperand d then .next (s.play [.frame (byteOperand d), .idle s.gapUs])
  else .next (s.reject .eRange)

end Sys2Proof.Machine
end

