-- ==== Sys2Proof/Machine/Dispatch.lean ====
section
/-! DEFINITION. One arm per instruction. -/

namespace Sys2Proof.Machine

def exec (i : Instr) (s : State) : Host.Outcome State Fault Refusal :=
  match i with
  | .nop d => Sys2Proof.Machine.execNop d s
  | .setfGconfIScaleAnalog t d => Sys2Proof.Machine.execSetfGconfIScaleAnalog t d s
  | .setfGconfInternalRsense t d => Sys2Proof.Machine.execSetfGconfInternalRsense t d s
  | .setfGconfEnSpreadcycle t d => Sys2Proof.Machine.execSetfGconfEnSpreadcycle t d s
  | .setfGconfShaft t d => Sys2Proof.Machine.execSetfGconfShaft t d s
  | .setfGconfIndexOtpw t d => Sys2Proof.Machine.execSetfGconfIndexOtpw t d s
  | .setfGconfIndexStep t d => Sys2Proof.Machine.execSetfGconfIndexStep t d s
  | .setfGconfPdnDisable t d => Sys2Proof.Machine.execSetfGconfPdnDisable t d s
  | .setfGconfMstepRegSelect t d => Sys2Proof.Machine.execSetfGconfMstepRegSelect t d s
  | .setfGconfMultistepFilt t d => Sys2Proof.Machine.execSetfGconfMultistepFilt t d s
  | .setfGconfTestMode t d => Sys2Proof.Machine.execSetfGconfTestMode t d s
  | .setfIholdIrunIhold t d => Sys2Proof.Machine.execSetfIholdIrunIhold t d s
  | .setfIholdIrunIrun t d => Sys2Proof.Machine.execSetfIholdIrunIrun t d s
  | .setfIholdIrunIholddelay t d => Sys2Proof.Machine.execSetfIholdIrunIholddelay t d s
  | .setfChopconfToff t d => Sys2Proof.Machine.execSetfChopconfToff t d s
  | .setfChopconfHstrt t d => Sys2Proof.Machine.execSetfChopconfHstrt t d s
  | .setfChopconfHend t d => Sys2Proof.Machine.execSetfChopconfHend t d s
  | .setfChopconfTbl t d => Sys2Proof.Machine.execSetfChopconfTbl t d s
  | .setfChopconfVsense t d => Sys2Proof.Machine.execSetfChopconfVsense t d s
  | .setfChopconfMres t d => Sys2Proof.Machine.execSetfChopconfMres t d s
  | .setfChopconfIntpol t d => Sys2Proof.Machine.execSetfChopconfIntpol t d s
  | .setfChopconfDedge t d => Sys2Proof.Machine.execSetfChopconfDedge t d s
  | .setfChopconfDiss2g t d => Sys2Proof.Machine.execSetfChopconfDiss2g t d s
  | .setfChopconfDiss2vs t d => Sys2Proof.Machine.execSetfChopconfDiss2vs t d s
  | .wrreg a d => Sys2Proof.Machine.execWrreg a d s
  | .send a d => Sys2Proof.Machine.execSend a d s
  | .crcClr d => Sys2Proof.Machine.execCrcClr d s
  | .crcByte d => Sys2Proof.Machine.execCrcByte d s
  | .txb d => Sys2Proof.Machine.execTxb d s
  | .setsettle d => Sys2Proof.Machine.execSetsettle d s
  | .setgap d => Sys2Proof.Machine.execSetgap d s
  | .wait d => Sys2Proof.Machine.execWait d s

end Sys2Proof.Machine
end

