-- ==== Sys2Proof/Machine/Transmitter.lean ====
section
/-! DEFINITION. The UART byte transmitter: what is on `tx`, and what a rising edge does to the event being played
(42_transport.md R240 to R243, 10_state.md R35, 60_exceptions.md R259). -/

namespace Sys2Proof.Machine

/-- The last bit period of a character: the stop bit (R240). -/
def stopBit : Nat := Config.dataBits + 1

/-- The level of bit period `k` of `Frame(b)` (R240): start bit 0, data bits least significant first, stop bit 1. -/
def frameLevel (b : Byte) (k : Nat) : Bool :=
  if k = 0 then false else if k ≤ Config.dataBits then b.getLsbD (k - 1) else true

/-- The `tx` pin (R240): 1 in an `Idle` event and whenever `PEND` is empty. -/
def State.txLevel (s : State) : Bool :=
  match s.pend with
  | [] => true
  | .idle _ :: _ => true
  | .frame b :: _ => frameLevel b s.bitIdx

/-- The quotient rounded up, of a divisor over 0. -/
def ceilDiv (a b : Nat) : Nat := (a + b - 1) / b

/-- The fewest clock edges a unit of an event may last (R241, R242), and at least one (log 5). A bit period may be as
short as R241 lets it be, also where R245 bounds a datagram without a tolerance: DESIGN CHOICE, log 25. -/
def fewestEdges (tb : Config.TimeBase) : WireEvent → Nat
  | .frame _ =>
    max 1 (ceilDiv (tb.fClk.num * (tb.baudTol.den - tb.baudTol.num)) (Config.baud * tb.fClk.den * tb.baudTol.den))
  | .idle d => max 1 (ceilDiv (d.toNat * tb.fClk.num) (1000000 * (tb.fClk.den : Nat)))

/-- The most clock edges a unit of an event may last (R241, R242). -/
def mostEdges (tb : Config.TimeBase) : WireEvent → Nat
  | .frame _ =>
    tb.fClk.num * (tb.baudTol.den + tb.baudTol.num) / (Config.baud * tb.fClk.den * tb.baudTol.den)
  | .idle d =>
    (d.toNat * tb.delayTolUs.den + tb.delayTolUs.num) * tb.fClk.num /
      (1000000 * (tb.fClk.den : Nat) * tb.delayTolUs.den)

/-- The edges of a unit that asks for `k` more than the fewest: no more than the tolerance allows, and the fewest where
it allows none (log 5). -/
def unitLength (tb : Config.TimeBase) (e : WireEvent) (k : Nat) : Nat :=
  fewestEdges tb e + min k (mostEdges tb e - fewestEdges tb e)

/-- The edges of the unit now on the line. -/
def State.unitEdges (s : State) (e : WireEvent) : Nat := unitLength s.timing e (s.timing.slack.headD 0)

/-- The unit on the line is the event's last one: the stop bit of a character, or the whole of an `Idle`. -/
def isLastUnit (e : WireEvent) (bitIdx : Nat) : Bool :=
  match e with
  | .frame _ => decide (stopBit ≤ bitIdx)
  | .idle _ => true

/-- The clock record once a unit has ended: the next entry of `slack` is the next unit's. -/
def nextUnit (tb : Config.TimeBase) : Config.TimeBase := { tb with slack := tb.slack.tail }

/-- The first event of `PEND` has ended: it is on the trace, and where none is left the block is idle (10_state.md R35). -/
def State.endEvent (s : State) (e : WireEvent) (rest : List WireEvent) : State :=
  { s with
    pend := rest
    bitIdx := 0
    trace := s.trace ++ [e]
    phase := if rest.isEmpty then .idle else s.phase }

/-- The transmitter at a rising edge that is no reset: one edge more of the unit on the line, or the unit's end. -/
def State.tick (s : State) : State :=
  match s.pend with
  | [] => { s with phase := .idle }
  | e :: rest =>
    if s.timer + 1 < s.unitEdges e then { s with timer := s.timer + 1 }
    else
      let s' := { s with timer := 0, timing := nextUnit s.timing }
      if isLastUnit e s.bitIdx then s'.endEvent e rest else { s' with bitIdx := s.bitIdx + 1 }

end Sys2Proof.Machine
end

