-- ==== Sys2Proof/Machine/Port.lean ====
section
/-! DEFINITION. The block's ports (10_state.md R20 to R23): the input pins at the coming edge, the handshake, what an
edge without a command does, reset (70_reset_and_hazards.md R280, R281), and the outputs as functions of the state. -/

namespace Sys2Proof.Machine

/-- A command port at rest: `rst_n = 1`, no command. -/
def restPins : Pins := ⟨true, false, ⟨0, 0⟩⟩

/-- The input pins at the coming rising edge (log 2). -/
def State.pins (s : State) : Pins :=
  match s.inputs with
  | [] => restPins
  | .edge p :: _ => p
  | .offer c :: _ => ⟨true, true, c⟩

/-- `cmd_ready` (10_state.md R22). -/
def State.cmdReady (s : State) : Bool := s.rstnLast && s.phase == .idle

/-- What the coming rising edge is for the block (10_state.md R21, 60_exceptions.md R254). -/
inductive EdgeKind where
  /-- `rst_n = 0`. -/
  | reset
  /-- The block accepts this command. -/
  | accept (c : Command)
  /-- Neither. -/
  | noCommand
  deriving DecidableEq, Repr

/-- Reset wins over a command; a command is accepted where it is presented and the block is ready (R21, R254). -/
def State.edgeKind (s : State) : EdgeKind :=
  if s.pins.rstN = false then .reset
  else if s.pins.cmdValid && s.cmdReady then .accept s.pins.cmd
  else .noCommand

/-- The host's list once the edge has accepted its command. -/
def State.accepted (s : State) : State :=
  { s with inputs := s.inputs.tail, rstnLast := true }

/-- The host's list after an edge that accepted nothing: pins for one edge are over, an offered command stays. -/
def afterNoCommand : List HostInput → List HostInput
  | [] => []
  | .edge _ :: l => l
  | .offer c :: l => .offer c :: l

/-- A rising edge with `rst_n = 1` that accepts nothing: the transmitter goes on. -/
def State.noCommandEdge (s : State) : State :=
  { s with inputs := afterNoCommand s.inputs, rstnLast := true }.tick

/-- A rising edge with `rst_n = 0` (70_reset_and_hazards.md R280, R281): every state element takes its reset value,
what is left of `PEND` is dropped. What has been on the line, the host's list and the clock are not the block's. An
event whose time is over at this very edge is dropped as well, and not on the trace: DESIGN CHOICE, log 8. -/
def State.resetEdge (s : State) : State :=
  { State.reset with trace := s.trace, inputs := s.inputs.tail, timing := s.timing }

/-- The `dgram` port: `DGRAM[0] ‖ ... ‖ DGRAM[7]` (10_state.md R20). -/
def State.dgramPort (s : State) : BitVec 64 :=
  s.dgramByte 0 ++ s.dgramByte 1 ++ s.dgramByte 2 ++ s.dgramByte 3 ++
    s.dgramByte 4 ++ s.dgramByte 5 ++ s.dgramByte 6 ++ s.dgramByte 7

/-- The output ports (10_state.md R20). -/
structure OutPorts where
  cmdReady : Bool
  tx : Bool
  busy : Bool
  err : BitVec 4
  crc : Byte
  gconf : Word
  iholdIrun : Word
  chopconf : Word
  settleUs : Word
  gapUs : Word
  dgram : BitVec 64
  deriving DecidableEq, Repr

/-- Every output is a function of the state (10_state.md R20, R23). -/
def State.outPorts (s : State) : OutPorts where
  cmdReady := s.cmdReady
  tx := s.txLevel
  busy := s.phase == .busy
  err := s.err
  crc := s.crcAcc
  gconf := s.gconf
  iholdIrun := s.iholdIrun
  chopconf := s.chopconf
  settleUs := s.settleUs
  gapUs := s.gapUs
  dgram := s.dgramPort

/-- The state with a command waiting on the port of a ready block, so that the next edge accepts it (log 3): the
command comes before whatever else the host has, the last edge was no reset, and nothing is on the line. -/
def State.present (s : State) (c : Command) : State :=
  { s with
    inputs := .offer c :: s.inputs
    rstnLast := true
    phase := .idle
    pend := []
    bitIdx := 0
    timer := 0 }

end Sys2Proof.Machine
end

