-- ==== Sys2Proof/Machine/Execute.lean ====
section
/-! DEFINITION. `Execute(w, d)`, what the block does with an accepted command (30_encoding.md R95). -/

namespace Sys2Proof.Machine

/-- Decode the command; perform it, or reject it (R95, 60_exceptions.md R252). -/
def execute (c : Command) (s : State) : Host.Outcome State Fault Refusal :=
  match decode c with
  | .reject e => .next (s.reject e)
  | .instr i => exec i s

end Sys2Proof.Machine
end

