-- ==== Sys2Proof/Machine/Step.lean ====
section
/-! DEFINITION. One step: one rising edge of `clk` (10_state.md R20). -/

namespace Sys2Proof.Machine

/-- A rising edge: reset, an accepted command, or neither. -/
def step (s : State) : Host.Outcome State Fault Refusal :=
  match s.edgeKind with
  | .reset => .next s.resetEdge
  | .accept c => execute c s.accepted
  | .noCommand => .next s.noCommandEdge

/-- The state whose next step accepts the command with the table word `w` (log 3). -/
def State.withFetchWord (s : State) (nbits w : Nat) : State :=
  s.present (tableCommand nbits w)

end Sys2Proof.Machine
end

