-- ==== Sys2Proof/Machine/Assembler.lean ====
section
/-! DEFINITION. The assembler: the forms of 30_encoding.md R94 and the pseudo-instructions of R96, from a line of text
to the commands it puts on the command port. Host-side; the block sees only the expansion (log 20). -/

namespace Sys2Proof.Machine

/-- `SET_DIRECTION dir` (R96). -/
def asmSetDirection (dir : Word) : List Instr := [.setfGconfShaft true dir]

/-- `VEL s` (R96): the velocity as its 32-bit two's complement word (00_scope.md R10). -/
def asmVel (v : Int) : List Instr := [.wrreg Config.addrVactual (BitVec.ofInt 32 v)]

/-- `SETCUR ih, ir, dl` (R96): transmits once, after the last field. -/
def asmSetcur (ih ir dl : Word) : List Instr :=
  [.setfIholdIrunIhold false ih, .setfIholdIrunIrun false ir, .setfIholdIrunIholddelay true dl]

/-- `CRC8 b0, ..., b(n-1)` (R96). -/
def asmCrc8 (bytes : List Word) : List Instr := .crcClr 0 :: bytes.map .crcByte

/-- `DELAY_US n` (R96). -/
def asmDelayUs (n : Word) : List Instr := [.wait n]

/-- `DELAY_MS n` (R96). -/
def asmDelayMs (n : Word) : List Instr := [.wait (n * 1000)]

/-- The value of a decimal digit. -/
def decDigit (c : Char) : Option Nat :=
  if '0' ≤ c ∧ c ≤ '9' then some (c.toNat - '0'.toNat) else none

/-- The value of a hexadecimal digit. -/
def hexDigit (c : Char) : Option Nat :=
  if '0' ≤ c ∧ c ≤ '9' then some (c.toNat - '0'.toNat)
  else if 'a' ≤ c ∧ c ≤ 'f' then some (c.toNat - 'a'.toNat + 10)
  else if 'A' ≤ c ∧ c ≤ 'F' then some (c.toNat - 'A'.toNat + 10)
  else none

/-- Digits read on from the value `acc`, in base 10 or, where `hex`, 16. -/
def digitsFrom (hex : Bool) (acc : Nat) : List Char → Option Nat
  | [] => some acc
  | c :: cs =>
    match (if hex then hexDigit c else decDigit c) with
    | some n => digitsFrom hex ((if hex then 16 else 10) * acc + n) cs
    | none => none

/-- A number: decimal, or hexadecimal after `0x` (R94). -/
def parseNumber : List Char → Option Nat
  | [] => none
  | '0' :: 'x' :: c :: cs => digitsFrom true 0 (c :: cs)
  | cs => digitsFrom false 0 cs

/-- A register name stands for its address (R94). -/
def registerName (cs : List Char) : Option Nat :=
  if cs = "GCONF".toList then some Config.addrGconf.toNat
  else if cs = "IHOLD_IRUN".toList then some Config.addrIholdIrun.toNat
  else if cs = "VACTUAL".toList then some Config.addrVactual.toNat
  else if cs = "CHOPCONF".toList then some Config.addrChopconf.toNat
  else none

/-- An operand: a register name, or a number with or without a minus sign. -/
def parseOperand (cs : List Char) : Option Int :=
  match registerName cs with
  | some n => some n
  | none =>
    match cs with
    | '-' :: ds => (parseNumber ds).map fun n => -(n : Int)
    | ds => (parseNumber ds).map fun n => (n : Int)

/-- The text without spaces at its ends. -/
def trimSpaces (cs : List Char) : List Char :=
  ((cs.dropWhile (· == ' ')).reverse.dropWhile (· == ' ')).reverse

/-- The pieces between commas. -/
def splitCommas : List Char → List (List Char)
  | [] => [[]]
  | c :: cs =>
    if c = ',' then [] :: splitCommas cs
    else
      match splitCommas cs with
      | p :: ps => (c :: p) :: ps
      | [] => [[c]]

/-- All the values, or none where one is missing. -/
def allSome : List (Option Int) → Option (List Int)
  | [] => some []
  | some n :: os => (allSome os).map (n :: ·)
  | none :: _ => none

/-- The operands of a line. -/
def parseOperands (cs : List Char) : Option (List Int) :=
  if trimSpaces cs = [] then some []
  else allSome ((splitCommas cs).map fun p => parseOperand (trimSpaces p))

/-- An unsigned operand of `w` bits. -/
def unsignedOperand (w : Nat) (n : Int) : Option (BitVec w) :=
  if 0 ≤ n ∧ n < 2 ^ w then some (BitVec.ofInt w n) else none

/-- A 32-bit operand that may be written signed (R96 `VEL`, 00_scope.md R10). -/
def signedOperand (n : Int) : Option Word :=
  if -(2 ^ 31) ≤ n ∧ n < 2 ^ 32 then some (BitVec.ofInt 32 n) else none

/-- The row of a mnemonic. -/
def rowNamed (cs : List Char) : Option OpRow :=
  opcodeTable.find? fun r => r.mnemonic.toList == cs

/-- A form of one row with the address in `ADDR` and the data word (R94). -/
def rowCommand (r : OpRow) (a : Addr) (d : Word) : Command :=
  ⟨r.pattern ||| (a.setWidth 32 <<< 8), d⟩

/-- The plain forms of R94. -/
def asmRow (r : OpRow) (ops : List Int) : Option (List Command) :=
  if r.mnemonic = "NOP" ∨ r.mnemonic = "CRC.CLR" then
    match ops with
    | [] => some [rowCommand r 0 0]
    | _ => none
  else if r.mnemonic = "SEND" then
    match ops with
    | [a] => (unsignedOperand 7 a).map fun a => [rowCommand r a 0]
    | _ => none
  else if r.mnemonic = "WRREG" then
    match ops with
    | [a, v] => (unsignedOperand 7 a).bind fun a => (signedOperand v).map fun v => [rowCommand r a v]
    | _ => none
  else
    match ops with
    | [v] => (unsignedOperand 32 v).map fun v => [rowCommand r 0 v]
    | _ => none

/-- A mnemonic that ends in `.T`, without the ending. -/
def withoutT (cs : List Char) : Option (List Char) :=
  match cs.reverse with
  | 'T' :: '.' :: ds => some ds.reverse
  | _ => none

/-- A SETF form with the suffix `.T`, which sets `T = 1` (R94). -/
def asmRowT (cs : List Char) (ops : List Int) : Option (List Command) :=
  (withoutT cs).bind fun ds => (rowNamed ds).bind fun r =>
    if opOf r.pattern = 0x1 then
      (asmRow r ops).map fun l => l.map fun c => ⟨c.word ||| 0x8000, c.data⟩
    else none

/-- The pseudo-instructions (R96) and `.word` (R94). -/
def asmOther (cs : List Char) (ops : List Int) : Option (List Command) :=
  if cs = ".word".toList then
    match ops with
    | [w, d] => (unsignedOperand 32 w).bind fun w => (unsignedOperand 32 d).map fun d => [⟨w, d⟩]
    | _ => none
  else if cs = "SET_DIRECTION".toList then
    match ops with
    | [dir] => (unsignedOperand 1 dir).map fun dir => (asmSetDirection (dir.setWidth 32)).map encode
    | _ => none
  else if cs = "VEL".toList then
    match ops with
    | [v] => if -(2 ^ 31) ≤ v ∧ v < 2 ^ 31 then some ((asmVel v).map encode) else none
    | _ => none
  else if cs = "SETCUR".toList then
    match ops with
    | [ih, ir, dl] =>
      (unsignedOperand 32 ih).bind fun ih => (unsignedOperand 32 ir).bind fun ir =>
        (unsignedOperand 32 dl).map fun dl => (asmSetcur ih ir dl).map encode
    | _ => none
  else if cs = "CRC8".toList then
    (allSome (ops.map fun b => if 0 ≤ b ∧ b < 2 ^ 32 then some b else none)).map fun bs =>
      (asmCrc8 (bs.map fun b => BitVec.ofInt 32 b)).map encode
  else if cs = "DELAY_US".toList then
    match ops with
    | [n] => (unsignedOperand 32 n).map fun n => (asmDelayUs n).map encode
    | _ => none
  else if cs = "DELAY_MS".toList then
    match ops with
    | [n] =>
      if 0 ≤ n ∧ n * 1000 < 2 ^ 32 then some ((asmDelayMs (BitVec.ofInt 32 n)).map encode) else none
    | _ => none
  else none

/-- The commands of one line: a mnemonic, then operands separated by commas (R94). -/
def assembleLine (line : String) : Option (List Command) :=
  let cs := trimSpaces line.toList
  let name := cs.takeWhile (· != ' ')
  (parseOperands (cs.drop name.length)).bind fun ops =>
    match rowNamed name with
    | some r => asmRow r ops
    | none =>
      match asmRowT name ops with
      | some l => some l
      | none => asmOther name ops

/-- The commands of a program, one line after another. -/
def assemble : List String → Option (List Command)
  | [] => some []
  | l :: ls => (assembleLine l).bind fun cs => (assemble ls).map (cs ++ ·)

end Sys2Proof.Machine
end

