-- ==== Sys2Proof/Machine/Trace.lean ====
section
/-! DEFINITION. Traces as observations (00_scope.md R12): the normal form, in which `Idle(0)` is gone and adjacent
`Idle` events are one. -/

namespace Sys2Proof.Machine

/-- An event of a normal form. A merged `Idle` may last longer than 32 bits can say. -/
inductive ObsEvent where
  | frame (b : Byte)
  | idle (us : Nat)
  deriving DecidableEq, Repr

/-- `us` microseconds of idle line before an observation. -/
def idleBefore (us : Nat) : List ObsEvent → List ObsEvent
  | [] => [.idle us]
  | .frame b :: os => .idle us :: .frame b :: os
  | .idle us' :: os => .idle (us + us') :: os

/-- The normal form of a finite trace (R12; log 24 for an infinite one). -/
def normalForm : List WireEvent → List ObsEvent
  | [] => []
  | .frame b :: es => .frame b :: normalForm es
  | .idle d :: es => if d = 0 then normalForm es else idleBefore d.toNat (normalForm es)

end Sys2Proof.Machine
end

