-- ==== Sys2Proof/Safety.lean ====
section
/-! DEFINITION. What a good state is (the invariant every step keeps), which inputs reset the block, and how many
edges the block stays busy. Statements are in these terms. -/

namespace Sys2Proof.Machine

/-- The bits of GCONF that are fields (40_register_model.md R121). -/
def gconfFieldMask : Word := 0x000003FF

/-- The bits of IHOLD_IRUN that are fields (R121). -/
def iholdIrunFieldMask : Word := 0x000F1F1F

/-- The bits of CHOPCONF that are fields (R121). -/
def chopconfFieldMask : Word := 0xFF0387FF

/-- The reserved bits of every shadow register are 0 (10_state.md R28). -/
def State.reservedZero (s : State) : Prop :=
  s.gconf &&& ~~~gconfFieldMask = 0 ∧ s.iholdIrun &&& ~~~iholdIrunFieldMask = 0 ∧
    s.chopconf &&& ~~~chopconfFieldMask = 0

/-- MRES holds a legal code: 9 to 15 never reach the shadow (40_register_model.md R148). -/
def State.mresLegal (s : State) : Prop := (Layout.chopconfMres.get s.chopconf).toNat ≤ 8

/-- `ERR` is one of its five codes (60_exceptions.md R250). -/
def State.errLegal (s : State) : Prop := s.err.toNat ≤ 4

/-- `PHASE` is `BUSY` exactly while events are pending, and no `Idle(0)` is ever pending or on the trace
(10_state.md R35, 00_scope.md R12). -/
def State.pendLegal (s : State) : Prop :=
  (s.phase = .busy ↔ s.pend ≠ []) ∧ WireEvent.idle 0 ∉ s.pend ∧ WireEvent.idle 0 ∉ s.trace

/-- The transmitter's place is inside the event it plays, and at the start where it plays none. -/
def State.placeLegal (s : State) : Prop :=
  match s.pend with
  | [] => s.bitIdx = 0 ∧ s.timer = 0
  | .frame b :: _ => s.bitIdx ≤ stopBit ∧ s.timer < s.unitEdges (.frame b)
  | .idle d :: _ => s.bitIdx = 0 ∧ s.timer < s.unitEdges (.idle d)

/-- The invariant. -/
structure State.Inv (s : State) : Prop where
  dgramWf : Memory.wf s.dgram
  reservedZero : s.reservedZero
  mresLegal : s.mresLegal
  errLegal : s.errLegal
  pendLegal : s.pendLegal
  placeLegal : s.placeLegal

/-- The host does not pull `rst_n` low at this input. -/
def HostInput.noReset : HostInput → Bool
  | .edge p => p.rstN
  | .offer _ => true

/-- The event of each unit still to play, the current one first. -/
def unitsOf : List WireEvent → List WireEvent
  | [] => []
  | .frame b :: es => List.replicate (stopBit + 1) (.frame b) ++ unitsOf es
  | .idle d :: es => .idle d :: unitsOf es

/-- The edges a list of units lasts, each with its entry of `slack`. -/
def totalEdges (tb : Config.TimeBase) : List WireEvent → List Nat → Nat
  | [], _ => 0
  | u :: us, slack => unitLength tb u (slack.headD 0) + totalEdges tb us slack.tail

/-- The edges after which a block that is not reset has played all of `PEND`. -/
def State.drainEdges (s : State) : Nat :=
  totalEdges s.timing ((unitsOf s.pend).drop s.bitIdx) s.timing.slack - s.timer

/-- `n` steps, stopping at the first outcome that is no next state: `Host.Core.run` of this machine. -/
def run : Nat → State → Host.Outcome State Fault Refusal
  | 0, s => .next s
  | n + 1, s =>
    match step s with
    | .next s' => run n s'
    | .fault r => .fault r
    | .refused r => .refused r

/-- The machine does not stop at this state: the outcome every step must have (60_exceptions.md R255, R263). -/
def stepSafe (s : State) : Prop := ∃ s', step s = .next s'

end Sys2Proof.Machine
end

