-- ==== Sys2Proof/Certificates/Slice0/Obligations.lean ====
section
/-! DEFINITION. The statements for the provers, and the few notions of spec/ they are said in (namespace
`Sys2Proof.Spec`), written from spec/ and not from the meanings. -/

open Sys2Proof Sys2Proof.Machine

namespace Sys2Proof.Spec

/-- The `n`-bit field of `w` from bit `lo` up, as a number (00_scope.md R9). -/
def field (w : Word) (lo n : Nat) : Nat := w.toNat / 2 ^ lo % 2 ^ n

/-- The code of a cause of rejection (60_exceptions.md R250). -/
def code : ErrCode → BitVec 4
  | .eOpcode => 1
  | .eAddr => 2
  | .eField => 3
  | .eRange => 4

/-- `ERR` after a rejection with cause `e`: sticky, the first code stays (10_state.md R33). -/
def stickyErr (err : BitVec 4) (e : ErrCode) : BitVec 4 := if err = 0 then code e else err

/-- The largest legal data word of a command that checks one (40_register_model.md R121, 41_crc_engine.md R186,
42_transport.md R213). -/
def dataLimit : Instr → Option Nat
  | .setfGconfIScaleAnalog _ _ => some 1
  | .setfGconfInternalRsense _ _ => some 1
  | .setfGconfEnSpreadcycle _ _ => some 1
  | .setfGconfShaft _ _ => some 1
  | .setfGconfIndexOtpw _ _ => some 1
  | .setfGconfIndexStep _ _ => some 1
  | .setfGconfPdnDisable _ _ => some 1
  | .setfGconfMstepRegSelect _ _ => some 1
  | .setfGconfMultistepFilt _ _ => some 1
  | .setfGconfTestMode _ _ => some 1
  | .setfIholdIrunIhold _ _ => some 31
  | .setfIholdIrunIrun _ _ => some 31
  | .setfIholdIrunIholddelay _ _ => some 15
  | .setfChopconfToff _ _ => some 15
  | .setfChopconfHstrt _ _ => some 7
  | .setfChopconfHend _ _ => some 15
  | .setfChopconfTbl _ _ => some 3
  | .setfChopconfVsense _ _ => some 1
  | .setfChopconfMres _ _ => some 8
  | .setfChopconfIntpol _ _ => some 1
  | .setfChopconfDedge _ _ => some 1
  | .setfChopconfDiss2g _ _ => some 1
  | .setfChopconfDiss2vs _ _ => some 1
  | .crcByte _ => some 255
  | .txb _ => some 255
  | .nop _ => none
  | .wrreg _ _ => none
  | .send _ _ => none
  | .crcClr _ => none
  | .setsettle _ => none
  | .setgap _ => none
  | .wait _ => none

/-- The cause for which a command is rejected, if it is: `Decode` first, then the range check (30_encoding.md R92). -/
def rejection (c : Command) : Option ErrCode :=
  match decode c with
  | .reject e => some e
  | .instr i =>
    match dataLimit i with
    | some n => if n < c.data.toNat then some .eRange else none
    | none => none

/-- An `Idle(d)` that is emitted: none for `d = 0` (00_scope.md R12). -/
def idleEvent (d : Word) : List WireEvent := if d = 0 then [] else [.idle d]

/-- The state `t` differs from `s` by a datagram to address `a` with value `v` built and put on the line: all 8 bytes
of `DGRAM` (42_transport.md R200), the events with 7 gaps and the settle delay (R201), and nothing else. -/
structure DatagramSent (a : Addr) (v : Word) (s t : State) : Prop where
  syncByte : t.dgramByte 0 = 0x05
  slaveByte : t.dgramByte 1 = 0x00
  registerByte : t.dgramByte 2 = BitVec.ofNat 8 (a.toNat + 128)
  value3 : (t.dgramByte 3).toNat = v.toNat / 2 ^ 24
  value2 : (t.dgramByte 4).toNat = v.toNat / 2 ^ 16 % 256
  value1 : (t.dgramByte 5).toNat = v.toNat / 2 ^ 8 % 256
  value0 : (t.dgramByte 6).toNat = v.toNat % 256
  crcByte : t.dgramByte 7 = crc8 ((List.range 7).map t.dgramByte)
  otherBytes : ∀ i, 8 ≤ i → t.dgramByte i = s.dgramByte i
  busy : t.phase = .busy
  events : t.pend =
    ((List.range 7).map fun i => WireEvent.frame (t.dgramByte i) :: idleEvent s.gapUs).flatten ++
      WireEvent.frame (t.dgramByte 7) :: idleEvent s.settleUs
  atStart : t.bitIdx = 0 ∧ t.timer = 0
  shadows : t.gconf = s.gconf ∧ t.iholdIrun = s.iholdIrun ∧ t.chopconf = s.chopconf
  otherRegisters : t.settleUs = s.settleUs ∧ t.gapUs = s.gapUs ∧ t.crcAcc = s.crcAcc ∧ t.err = s.err
  surroundings : t.trace = s.trace ∧ t.inputs = s.inputs ∧ t.timing = s.timing ∧ t.rstnLast = s.rstnLast

/-- The rule of a field setter (40_register_model.md R123) with its constants: the command `mk t d` on the register
that `get` reads and `put` writes, address `a`, field mask `bits`, lowest bit `lo`, largest value `max`. -/
def SetterRule (get : State → Word) (put : Word → State → State) (a : Addr)
    (mk : Bool → Word → Instr) (bits : Word) (lo max : Nat) : Prop :=
  ∀ (d : Word) (s : State),
    (d.toNat ≤ max →
      exec (mk false d) s = .next (put ((get s &&& ~~~bits) ||| (d <<< lo)) s) ∧
      ∃ t, exec (mk true d) s = .next t ∧
        DatagramSent a ((get s &&& ~~~bits) ||| (d <<< lo)) (put ((get s &&& ~~~bits) ||| (d <<< lo)) s) t) ∧
    (max < d.toNat → ∀ tr, exec (mk tr d) s = .next { s with err := stickyErr s.err .eRange })

/-- `SetterRule` on GCONF. -/
def GconfRule := SetterRule (fun s => s.gconf) (fun v s => { s with gconf := v }) 0x00

/-- `SetterRule` on IHOLD_IRUN. -/
def IholdIrunRule := SetterRule (fun s => s.iholdIrun) (fun v s => { s with iholdIrun := v }) 0x10

/-- `SetterRule` on CHOPCONF. -/
def ChopconfRule := SetterRule (fun s => s.chopconf) (fun v s => { s with chopconf := v }) 0x6C

/-- The command `c` stands on the port of a ready block at the coming edge, with `rst_n = 1`, and `l` is what the host
does after that edge (10_state.md R21, R22). -/
def Accepts (s : State) (c : Command) (l : List HostInput) : Prop :=
  s.rstnLast = true ∧ s.phase = .idle ∧
    (s.inputs = .offer c :: l ∨ s.inputs = .edge ⟨true, true, c⟩ :: l)

/-- The registers a command can write. -/
def SameRegisters (s t : State) : Prop :=
  t.gconf = s.gconf ∧ t.iholdIrun = s.iholdIrun ∧ t.chopconf = s.chopconf ∧ t.settleUs = s.settleUs ∧
    t.gapUs = s.gapUs ∧ t.crcAcc = s.crcAcc ∧ t.err = s.err ∧ t.dgram = s.dgram

/-- The events of one datagram (42_transport.md R201), in terms of its 8 bytes. -/
def sendEvents (gap settle : Word) (bytes : List Byte) : List WireEvent :=
  ((bytes.take 7).map fun b => WireEvent.frame b :: idleEvent gap).flatten ++
    (bytes.drop 7).map WireEvent.frame ++ idleEvent settle

/-- One bit of the CRC on numbers below 256 (41_crc_engine.md R180). -/
def crcBitNat (c dataBit : Nat) : Nat :=
  if c / 128 ≠ dataBit then (2 * c % 256) ^^^ 7 else 2 * c % 256

/-- `rev8(b)` (41_crc_engine.md R182). -/
def rev8 (b : Byte) : Byte := BitVec.ofFnLE fun k : Fin 8 => b.getLsbD (7 - k)

/-- `Tab[i]`: `i` shifted left `n` times through the feedback, `n = 8` (41_crc_engine.md R182). -/
def tabShift (i : Byte) : Nat → Byte
  | 0 => i
  | n + 1 => tabShift (if i.getLsbD 7 then (i <<< 1) ^^^ 0x07 else i <<< 1) n

/-- Perform instructions one after another. -/
def execAll : List Instr → State → Host.Outcome State Fault Refusal
  | [], s => .next s
  | i :: is, s =>
    match exec i s with
    | .next s' => execAll is s'
    | .fault r => .fault r
    | .refused r => .refused r

/-- A command performed whole, its events at once on the trace (20_memory.md R69, R71): the sequential reading of the
block. -/
def performWhole (s : State) (c : Command) : State :=
  match execute c s with
  | .next t => { t with trace := t.trace ++ t.pend, pend := [], phase := .idle, bitIdx := 0, timer := 0 }
  | .fault _ => s
  | .refused _ => s

/-- The commands of a host that sends bytes itself: TXB of each, then WAIT (70_reset_and_hazards.md R295). -/
def hostBuilt (settle : Word) (bytes : List Byte) : List Command :=
  bytes.map (fun b : Byte => Command.mk 0x00000006 (b.setWidth 32)) ++ [Command.mk 0x00000009 settle]

/-- No two `Idle` events stand side by side, and none is `Idle(0)`. -/
def Merged : List ObsEvent → Prop
  | [] => True
  | .frame _ :: os => Merged os
  | .idle us :: os => us ≠ 0 ∧ (∀ us' os', os ≠ .idle us' :: os') ∧ Merged os

/-- The observation of an idle line of `us` microseconds in all: nothing where it is 0 (00_scope.md R12). -/
def obsIdle (us : Nat) : List ObsEvent := if us = 0 then [] else [.idle us]

end Sys2Proof.Spec

open Sys2Proof.Spec

/-- The state after reset holds the values R38 gives. -/
def Obligations.ResetLeavesTheStatedValues : Prop :=
  State.reset.gconf = 0x00000000 ∧ State.reset.iholdIrun = 0x00000000 ∧ State.reset.chopconf = 0x00000000 ∧
  State.reset.settleUs = 3000 ∧ State.reset.gapUs = 0 ∧ State.reset.crcAcc = 0x00 ∧ State.reset.err = 0 ∧
  (∀ i, State.reset.dgramByte i = 0x00) ∧ State.reset.phase = .idle ∧ State.reset.pend = [] ∧
  State.reset.txLevel = true

/-- One edge with rst_n = 0 gives every element its reset value, whatever the state and the command pins (R280, R254).
The whole-state equality rests on the model beside the rules: the host list (log 2), the clock record kept (log 4), the
transmitter at its start (log 6), the level of rst_n (log 7), the trace kept (log 8). -/
def Obligations.ResetEdgeFromAnyState : Prop :=
  ∀ (s : State) (v : Bool) (c : Command) (l : List HostInput), s.inputs = .edge ⟨false, v, c⟩ :: l →
    ∃ t, step s = .next t ∧
      t = { State.reset with trace := s.trace, inputs := l, timing := s.timing } ∧
      t.gconf = 0 ∧ t.iholdIrun = 0 ∧ t.chopconf = 0 ∧ t.settleUs = 3000 ∧ t.gapUs = 0 ∧ t.crcAcc = 0 ∧ t.err = 0 ∧
      (∀ i, t.dgramByte i = 0) ∧ t.phase = .idle ∧ t.pend = [] ∧ t.txLevel = true ∧ t.cmdReady = false ∧
      (t.pins.rstN = true → ∃ u, step t = .next u ∧ SameRegisters t u ∧ u.pend = [] ∧ u.cmdReady = true)

/-- A reset edge while events are pending drops them and puts tx at 1. The trace records whole events (log 8). -/
def Obligations.ResetCutsWhatIsOnTheLine : Prop :=
  ∀ s : State, s.pins.rstN = false →
    ∃ t, step s = .next t ∧ t.pend = [] ∧ t.txLevel = true ∧ t.trace = s.trace ∧ t.cmdReady = false

/-- The invariant holds of the reset state. -/
def Obligations.ResetStateMeetsTheInvariant : Prop :=
  State.reset.Inv

/-- Every step keeps the invariant. -/
def Obligations.EveryStepKeepsTheInvariant : Prop :=
  ∀ s t : State, s.Inv → step s = .next t → t.Inv

/-- From reset, whatever the host does and whatever the clock, reserved shadow bits are 0 at every point. -/
def Obligations.ReservedBitsAreZeroAtEveryPointOfEveryRun : Prop :=
  ∀ (l : List HostInput) (tb : Config.TimeBase) (n : Nat),
    ∃ t, run n { State.reset with inputs := l, timing := tb } = .next t ∧
      t.gconf.toNat < 2 ^ 10 ∧
      (∀ k, (t.iholdIrun.getLsbD k = true) → k < 5 ∨ (8 ≤ k ∧ k < 13) ∨ (16 ≤ k ∧ k < 20)) ∧
      (∀ k, (t.chopconf.getLsbD k = true) → k < 11 ∨ (15 ≤ k ∧ k < 18) ∨ 24 ≤ k)

/-- The block never stops: every step of every state answers a next state. -/
def Obligations.EveryStepGoesOn : Prop :=
  ∀ s : State, stepSafe s

/-- An accepting edge performs exactly the decoded instruction. -/
def Obligations.StepPerformsTheDecodedCommand : Prop :=
  ∀ (s : State) (c : Command) (l : List HostInput) (i : Instr), Accepts s c l → decode c = .instr i →
    step s = exec i { s with inputs := l }

/-- A rejected command writes ERR if it is 0 and does nothing else; the next edge can accept. -/
def Obligations.RejectedCommandOnlyRecordsItsCode : Prop :=
  ∀ (s : State) (c : Command) (l : List HostInput) (e : ErrCode), Accepts s c l → rejection c = some e →
    step s = .next { s with inputs := l, err := if s.err = 0 then code e else s.err } ∧
    ∀ t, step s = .next t → t.cmdReady = true ∧ t.pend = s.pend

/-- ERR keeps its first code until reset; only a rejected command writes it. -/
def Obligations.ErrIsStickyAndOnlyRejectionsWriteIt : Prop :=
  State.reset.err = 0 ∧
  ∀ s t : State, step s = .next t →
    (s.pins.rstN = false → t.err = 0) ∧
    (s.pins.rstN = true → s.err ≠ 0 → t.err = s.err) ∧
    (s.pins.rstN = true → s.err = 0 → s.pins.cmdValid = true → s.cmdReady = true →
      ∀ e, rejection s.pins.cmd = some e → t.err = code e ∧ 1 ≤ (code e).toNat ∧ (code e).toNat ≤ 4) ∧
    (s.pins.rstN = true → s.err = 0 →
      (s.pins.cmdValid = false ∨ s.cmdReady = false ∨ rejection s.pins.cmd = none) → t.err = 0)

/-- cmd_ready is 1 exactly when rst_n was 1 at the last edge and PHASE is IDLE. -/
def Obligations.CommandReadyAfterEveryEdge : Prop :=
  ∀ s t : State, step s = .next t →
    (t.cmdReady = true ↔ s.pins.rstN = true ∧ t.phase = .idle)

/-- A command presented while cmd_ready = 0 is neither lost nor performed, and may be changed or withdrawn. -/
def Obligations.CommandWaitsUntilReady : Prop :=
  (∀ (s : State) (c : Command) (l : List HostInput), s.inputs = .offer c :: l → s.cmdReady = false →
    ∃ t, step s = .next t ∧ t.inputs = .offer c :: l ∧ SameRegisters s t ∧ t.trace ++ t.pend = s.trace ++ s.pend) ∧
  (∀ (s : State) (c : Command) (l : List HostInput), s.inputs = .edge ⟨true, true, c⟩ :: l → s.cmdReady = false →
    ∃ t, step s = .next t ∧ t.inputs = l ∧ SameRegisters s t ∧ t.trace ++ t.pend = s.trace ++ s.pend) ∧
  (∀ (s : State) (c : Command) (l : List HostInput), s.inputs = .edge ⟨true, false, c⟩ :: l →
    ∃ t, step s = .next t ∧ t.inputs = l ∧ SameRegisters s t ∧ t.trace ++ t.pend = s.trace ++ s.pend) ∧
  (∀ (s : State) (c : Command) (l : List HostInput), Accepts s c l → step s = execute c { s with inputs := l })

/-- Without reset, a register changes only at an edge that accepts a command of its own unit. -/
def Obligations.EachRegisterHasItsWriters : Prop :=
  ∀ s t : State, s.pins.rstN = true → step s = .next t →
    let w := s.pins.cmd.word
    let accepted := s.pins.cmdValid = true ∧ s.cmdReady = true
    (t.gconf ≠ s.gconf → accepted ∧ field w 0 4 = 1 ∧ field w 8 7 = 0x00) ∧
    (t.iholdIrun ≠ s.iholdIrun → accepted ∧ field w 0 4 = 1 ∧ field w 8 7 = 0x10) ∧
    (t.chopconf ≠ s.chopconf → accepted ∧ field w 0 4 = 1 ∧ field w 8 7 = 0x6C) ∧
    (t.crcAcc ≠ s.crcAcc → accepted ∧ (field w 0 4 = 4 ∨ field w 0 4 = 5)) ∧
    (t.settleUs ≠ s.settleUs → accepted ∧ field w 0 4 = 7) ∧
    (t.gapUs ≠ s.gapUs → accepted ∧ field w 0 4 = 8) ∧
    (∀ i, t.dgramByte i ≠ s.dgramByte i →
      accepted ∧ (field w 0 4 = 2 ∨ field w 0 4 = 3 ∨ (field w 0 4 = 1 ∧ field w 15 1 = 1)))

/-- DGRAM[i] is byte i of the dgram port, the first most significant. -/
def Obligations.DatagramPortBytes : Prop :=
  ∀ (s : State) (i : Nat), i < 8 → (s.dgramPort.extractLsb' (56 - 8 * i) 8) = s.dgramByte i

/-- Decode of every 32-bit word is what the ordered checks of R91 say. -/
def Obligations.DecodeClassifiesEveryWord : Prop :=
  (∀ w d : Word,
    let op := field w 0 4
    let sel := field w 4 4
    let a := field w 8 7
    let badOpcode := field w 16 16 ≠ 0 ∨ 10 ≤ op ∨ (op ≠ 1 ∧ (sel ≠ 0 ∨ field w 15 1 ≠ 0)) ∨
      (op ≠ 1 ∧ op ≠ 2 ∧ op ≠ 3 ∧ a ≠ 0)
    let badAddr := ((op = 1 ∨ op = 3) ∧ a ≠ 0x00 ∧ a ≠ 0x10 ∧ a ≠ 0x6C) ∨
      (op = 2 ∧ a ≠ 0x00 ∧ a ≠ 0x10 ∧ a ≠ 0x22 ∧ a ≠ 0x6C)
    let badField := op = 1 ∧ ((a = 0x00 ∧ 9 < sel) ∨ (a = 0x10 ∧ 2 < sel) ∨ (a = 0x6C ∧ 9 < sel))
    (decode ⟨w, d⟩ = .reject .eOpcode ↔ badOpcode) ∧
    (decode ⟨w, d⟩ = .reject .eAddr ↔ ¬ badOpcode ∧ badAddr) ∧
    (decode ⟨w, d⟩ = .reject .eField ↔ ¬ badOpcode ∧ ¬ badAddr ∧ badField) ∧
    decode ⟨w, d⟩ ≠ .reject .eRange ∧
    ∀ i, decode ⟨w, d⟩ = .instr i →
      ((opcodeTable.filter fun r => r.fits w).map fun r => r.mnemonic) = [i.mnemonic]) ∧
  ((opcodeTable.filter fun r => r.fits 0x00000102).map fun r => r.mnemonic) = ["WRREG"] ∧
  ∀ d, decode ⟨0x00000102, d⟩ = .reject .eAddr

/-- Decoding the words of a well-formed instruction gives it back. -/
def Obligations.DecodeOfEncodeIsTheInstruction : Prop :=
  ∀ i : Instr, i.wellFormed = true → decode (encode i) = .instr i

/-- A command that decodes is the encoding of its instruction, bit for bit. -/
def Obligations.EncodeOfDecodeIsTheCommand : Prop :=
  ∀ (c : Command) (i : Instr), decode c = .instr i → i.wellFormed = true ∧ encode i = c

/-- Words of every family, as the spec prints them, decode to their instructions. -/
def Obligations.StatedWordsDecode : Prop :=
  ∀ d : Word,
    decode ⟨0x00000000, d⟩ = .instr (.nop d) ∧
    decode ⟨0x00000001, d⟩ = .instr (.setfGconfIScaleAnalog false d) ∧
    decode ⟨0x00008031, d⟩ = .instr (.setfGconfShaft true d) ∧
    decode ⟨0x00000091, d⟩ = .instr (.setfGconfTestMode false d) ∧
    decode ⟨0x00001001, d⟩ = .instr (.setfIholdIrunIhold false d) ∧
    decode ⟨0x00001011, d⟩ = .instr (.setfIholdIrunIrun false d) ∧
    decode ⟨0x00009021, d⟩ = .instr (.setfIholdIrunIholddelay true d) ∧
    decode ⟨0x00006C01, d⟩ = .instr (.setfChopconfToff false d) ∧
    decode ⟨0x0000EC51, d⟩ = .instr (.setfChopconfMres true d) ∧
    decode ⟨0x00006C91, d⟩ = .instr (.setfChopconfDiss2vs false d) ∧
    decode ⟨0x00002202, d⟩ = .instr (.wrreg 0x22 d) ∧
    decode ⟨0x00006C03, d⟩ = .instr (.send 0x6C d) ∧
    decode ⟨0x00000004, d⟩ = .instr (.crcClr d) ∧
    decode ⟨0x00000005, d⟩ = .instr (.crcByte d) ∧
    decode ⟨0x00000006, d⟩ = .instr (.txb d) ∧
    decode ⟨0x00000007, d⟩ = .instr (.setsettle d) ∧
    decode ⟨0x00000008, d⟩ = .instr (.setgap d) ∧
    decode ⟨0x00000009, d⟩ = .instr (.wait d)

/-- NOP, SEND and CRC.CLR give the same result for every data word. -/
def Obligations.UnusedDataWordIsIgnored : Prop :=
  ∀ (w d d' : Word) (s : State), (field w 0 4 = 0 ∨ field w 0 4 = 3 ∨ field w 0 4 = 4) →
    execute ⟨w, d⟩ s = execute ⟨w, d'⟩ s

/-- The ten GCONF setters (R123, R130 to R139). Each rule ends in an example the spec marks as derived, so the basis is derived. -/
def Obligations.GconfSettersSetTheirBit : Prop :=
  GconfRule Instr.setfGconfIScaleAnalog 0x00000001 0 1 ∧
  GconfRule Instr.setfGconfInternalRsense 0x00000002 1 1 ∧
  GconfRule Instr.setfGconfEnSpreadcycle 0x00000004 2 1 ∧
  GconfRule Instr.setfGconfShaft 0x00000008 3 1 ∧
  GconfRule Instr.setfGconfIndexOtpw 0x00000010 4 1 ∧
  GconfRule Instr.setfGconfIndexStep 0x00000020 5 1 ∧
  GconfRule Instr.setfGconfPdnDisable 0x00000040 6 1 ∧
  GconfRule Instr.setfGconfMstepRegSelect 0x00000080 7 1 ∧
  GconfRule Instr.setfGconfMultistepFilt 0x00000100 8 1 ∧
  GconfRule Instr.setfGconfTestMode 0x00000200 9 1

/-- The three IHOLD_IRUN setters (R123, R140 to R142). -/
def Obligations.IholdIrunSettersSetTheirField : Prop :=
  IholdIrunRule Instr.setfIholdIrunIhold 0x0000001F 0 31 ∧
  IholdIrunRule Instr.setfIholdIrunIrun 0x00001F00 8 31 ∧
  IholdIrunRule Instr.setfIholdIrunIholddelay 0x000F0000 16 15

/-- The ten CHOPCONF setters (R123, R143 to R152). -/
def Obligations.ChopconfSettersSetTheirField : Prop :=
  ChopconfRule Instr.setfChopconfToff 0x0000000F 0 15 ∧
  ChopconfRule Instr.setfChopconfHstrt 0x00000070 4 7 ∧
  ChopconfRule Instr.setfChopconfHend 0x00000780 7 15 ∧
  ChopconfRule Instr.setfChopconfTbl 0x00018000 15 3 ∧
  ChopconfRule Instr.setfChopconfVsense 0x00020000 17 1 ∧
  ChopconfRule Instr.setfChopconfMres 0x0F000000 24 8 ∧
  ChopconfRule Instr.setfChopconfIntpol 0x10000000 28 1 ∧
  ChopconfRule Instr.setfChopconfDedge 0x20000000 29 1 ∧
  ChopconfRule Instr.setfChopconfDiss2g 0x40000000 30 1 ∧
  ChopconfRule Instr.setfChopconfDiss2vs 0x80000000 31 1

/-- Setting a field of the layout reads back as the value and changes no bit outside the field. -/
def Obligations.FieldWriteIsReadBackAndIsolated : Prop :=
  Layout.all.length = 23 ∧
  ∀ f ∈ Layout.all, ∀ x d : Word, d ≤ f.max →
    f.get (f.set x d) = d ∧
    ∀ k, (k < f.lo ∨ f.lo + f.width ≤ k) → (f.set x d).getLsbD k = x.getLsbD k

/-- No two fields of one register share a bit, and the fields of each register fill its field mask. -/
def Obligations.FieldsOfARegisterAreDisjoint : Prop :=
  (∀ f ∈ Layout.all, ∀ g ∈ Layout.all, f.reg = g.reg → f ≠ g → f.bits &&& g.bits = 0) ∧
  (Layout.gconf.foldl (fun m f => m ||| f.bits) 0 = 0x000003FF) ∧
  (Layout.iholdIrun.foldl (fun m f => m ||| f.bits) 0 = 0x000F1F1F) ∧
  (Layout.chopconf.foldl (fun m f => m ||| f.bits) 0 = 0xFF0387FF)

/-- SETCUR 16, 16, 8 from a zero register encodes 0x00081010 and sends it. -/
def Obligations.DriverCurrentConstant : Prop :=
  ∀ s : State, s.iholdIrun = 0 →
    ∃ t, execAll (asmSetcur 16 16 8) s = .next t ∧ t.iholdIrun = 0x00081010 ∧
      DatagramSent 0x10 0x00081010 { s with iholdIrun := 0x00081010 } t

/-- WRREG (R210, R200, R201, R128). The clause about other addresses is the model (log 9). -/
def Obligations.WrregSendsItsDataWord : Prop :=
  ∀ (a : Addr) (d : Word) (s : State),
    ((a = 0x00 ∨ a = 0x10 ∨ a = 0x22 ∨ a = 0x6C) →
      ∃ t, exec (.wrreg a d) s = .next t ∧ DatagramSent a d s t) ∧
    (¬ (a = 0x00 ∨ a = 0x10 ∨ a = 0x22 ∨ a = 0x6C) →
      exec (.wrreg a d) s = .next { s with err := stickyErr s.err .eAddr })

/-- SEND (R211, R127). The clause about other addresses is the model (log 9). -/
def Obligations.SendSendsTheShadow : Prop :=
  ∀ (a : Addr) (d : Word) (s : State),
    (∃ t, exec (.send 0x00 d) s = .next t ∧ DatagramSent 0x00 s.gconf s t) ∧
    (∃ t, exec (.send 0x10 d) s = .next t ∧ DatagramSent 0x10 s.iholdIrun s t) ∧
    (∃ t, exec (.send 0x6C d) s = .next t ∧ DatagramSent 0x6C s.chopconf s t) ∧
    (¬ (a = 0x00 ∨ a = 0x10 ∨ a = 0x6C) →
      exec (.send a d) s = .next { s with err := stickyErr s.err .eAddr })

/-- TXB completes with one character and the inter-byte delay pending, and nothing else changed. -/
def Obligations.TxbSendsOneCharacter : Prop :=
  ∀ (d : Word) (s : State),
    (d.toNat < 256 → exec (.txb d) s = .next
      { s with phase := .busy, pend := .frame (d.setWidth 8) :: idleEvent s.gapUs, bitIdx := 0, timer := 0 }) ∧
    (256 ≤ d.toNat → exec (.txb d) s = .next { s with err := stickyErr s.err .eRange })

/-- SETSETTLE and SETGAP set their register to any data word and change nothing else. -/
def Obligations.DelaySettersSetTheirRegister : Prop :=
  ∀ (d : Word) (s : State),
    exec (.setsettle d) s = .next { s with settleUs := d } ∧ exec (.setgap d) s = .next { s with gapUs := d }

/-- WAIT completes with Idle(d) pending; WAIT 0 changes nothing. -/
def Obligations.WaitHoldsTheLineIdle : Prop :=
  ∀ (d : Word) (s : State),
    exec (.wait 0) s = .next s ∧
    (d ≠ 0 → exec (.wait d) s = .next { s with phase := .busy, pend := [.idle d], bitIdx := 0, timer := 0 })

/-- NOP leaves every state element as it was. -/
def Obligations.NopChangesNothing : Prop :=
  ∀ (d : Word) (s : State), exec (.nop d) s = .next s

/-- Crc8Step is the bit-serial loop of R180, on numbers. -/
def Obligations.CrcStepIsBitSerial : Prop :=
  ∀ c b : Byte, (crc8Step c b).toNat =
    (List.range 8).foldl (fun acc j => crcBitNat acc (b.toNat / 2 ^ j % 2)) c.toNat

/-- Crc8Step is the table of c ^ rev8(b), and is linear in its two arguments. -/
def Obligations.CrcIsTableDrivenAndLinear : Prop :=
  (∀ c b : Byte, crc8Step c b = tabShift (c ^^^ rev8 b) 8) ∧
  (∀ c b : Byte, crc8Step c b = crc8Step c 0x00 ^^^ crc8Step 0x00 b) ∧
  ((List.range 16).map fun i => tabShift (BitVec.ofNat 8 i) 8) =
    [0x00, 0x07, 0x0E, 0x09, 0x1C, 0x1B, 0x12, 0x15, 0x38, 0x3F, 0x36, 0x31, 0x24, 0x23, 0x2A, 0x2D]

/-- Crc8 starts at 0 and takes the bytes in order; the vectors of the spec, and the example of R180, which the spec marks
derived. -/
def Obligations.CrcOfSequences : Prop :=
  crc8 [] = 0x00 ∧
  (∀ (bs : List Byte) (b : Byte), crc8 (bs ++ [b]) = crc8Step (crc8 bs) b) ∧
  crc8 [0x05, 0x00, 0x90, 0x00, 0x00, 0x00, 0x01] = 0xD9 ∧
  crc8 [0x31, 0x32, 0x33, 0x34, 0x35, 0x36, 0x37, 0x38, 0x39] = 0x04 ∧
  ((List.range 8).map fun n => crcBits 0x00 0x05 0 (n + 1)) = [0x07, 0x0E, 0x1B, 0x36, 0x6C, 0xD8, 0xB7, 0x69]

/-- CRC.CLR and CRC.BYTE write CRC_ACC and nothing else; too large a byte is rejected. -/
def Obligations.CrcCommandsDriveTheAccumulator : Prop :=
  ∀ (d : Word) (s : State),
    exec (.crcClr d) s = .next { s with crcAcc := 0x00 } ∧
    (d.toNat < 256 → exec (.crcByte d) s = .next { s with crcAcc := crc8Step s.crcAcc (d.setWidth 8) }) ∧
    (256 ≤ d.toNat → exec (.crcByte d) s = .next { s with err := stickyErr s.err .eRange })

/-- CRC.CLR and CRC.BYTE of each byte leave Crc8 of the bytes in CRC_ACC. -/
def Obligations.CrcPseudoInstructionComputesTheCrc : Prop :=
  ∀ (bs : List Byte) (s : State),
    execAll (asmCrc8 (bs.map fun b => b.setWidth 32)) s = .next { s with crcAcc := crc8 bs }

/-- The levels of tx: start bit, data bits least significant first, stop bit, idle. -/
def Obligations.TxPinLevels : Prop :=
  ∀ (s : State) (b : Byte) (d : Word) (rest : List WireEvent) (k : Nat),
    (s.pend = .frame b :: rest → s.bitIdx = 0 → s.txLevel = false) ∧
    (s.pend = .frame b :: rest → k < 8 → s.bitIdx = k + 1 → s.txLevel = b.toNat.testBit k) ∧
    (s.pend = .frame b :: rest → s.bitIdx = 9 → s.txLevel = true) ∧
    (s.pend = .idle d :: rest → s.txLevel = true) ∧
    (s.pend = [] → s.txLevel = true)

/-- A character whose bit periods are equal is played as ten bit periods with the levels of its frame, then joins the trace. -/
def Obligations.CharacterIsTenEqualBitPeriods : Prop :=
  ∀ (s : State) (b : Byte) (rest : List WireEvent) (k n : Nat),
    s.phase = .busy → s.pend = .frame b :: rest → s.bitIdx = 0 → s.timer = 0 →
    (∀ i, i < 10 → s.timing.slack.getD i 0 = k) → s.unitEdges (.frame b) = n →
    s.inputs.all HostInput.noReset = true →
    0 < n ∧
    (∀ j, j < 10 * n → ∃ t, run j s = .next t ∧ t.pend = s.pend ∧ t.trace = s.trace ∧
      t.txLevel = (if j / n = 0 then false else if j / n = 9 then true else b.toNat.testBit (j / n - 1))) ∧
    ∃ t, run (10 * n) s = .next t ∧ t.pend = rest ∧ t.trace = s.trace ++ [.frame b] ∧
      (t.phase = .idle ↔ rest = [])

/-- Idle(d) holds the line for at least d microseconds of clock edges and ends within the tolerance. -/
def Obligations.IdleLastsAtLeastItsDelay : Prop :=
  ∀ (s : State) (d : Word) (rest : List WireEvent),
    s.phase = .busy → s.pend = .idle d :: rest → d ≠ 0 → s.bitIdx = 0 → s.timer = 0 →
    s.inputs.all HostInput.noReset = true →
    (∀ k, k * 1000000 * s.timing.fClk.den < d.toNat * s.timing.fClk.num →
      ∃ t, run k s = .next t ∧ t.pend = s.pend ∧ t.txLevel = true ∧ t.trace = s.trace) ∧
    ∃ n t, d.toNat * s.timing.fClk.num ≤ n * 1000000 * s.timing.fClk.den ∧
      ((∃ m, s.timing.idleWithin d.toNat m) → s.timing.idleWithin d.toNat n) ∧
      run n s = .next t ∧ t.pend = rest ∧ t.trace = s.trace ++ [.idle d]

/-- A busy block that is not reset plays all of PEND and is idle after exactly drainEdges edges. -/
def Obligations.BusyBlockBecomesIdle : Prop :=
  ∀ s : State, s.Inv → s.inputs.all HostInput.noReset = true →
    (∀ k, k < s.drainEdges → ∃ t, run k s = .next t ∧ t.phase = .busy ∧ SameRegisters s t) ∧
    ∃ t, run s.drainEdges s = .next t ∧ t.phase = .idle ∧ t.pend = [] ∧ t.trace = s.trace ++ s.pend ∧
      SameRegisters s t

/-- A command held on the port of a busy block is accepted and performed when the block becomes ready. -/
def Obligations.OfferedCommandIsPerformedLater : Prop :=
  ∀ (s : State) (c : Command) (l : List HostInput), s.Inv → s.phase = .busy → s.inputs = .offer c :: l →
    ∃ t, run s.drainEdges s = .next t ∧ t.cmdReady = true ∧ t.inputs = .offer c :: l ∧ SameRegisters s t ∧
      t.trace = s.trace ++ s.pend ∧ run (s.drainEdges + 1) s = execute c { t with inputs := l }

/-- A stream of commands is performed in order, each whole, and the trace is the concatenation of their events. -/
def Obligations.CommandsArePerformedInOrderEachWhole : Prop :=
  ∀ (cs : List Command) (s : State), s.Inv → s.phase = .idle → s.rstnLast = true →
    s.inputs = cs.map HostInput.offer →
    ∃ n t, run n s = .next t ∧ t.inputs = [] ∧ t.phase = .idle ∧
      { t with timing := s.timing } = cs.foldl performWhole { s with inputs := [] }

/-- A datagram command (WRREG, SEND, a setter with T = 1) keeps the block busy at least 80 bit periods, 7 gaps and the settle
delay. The bit periods are the shortest R241 allows, which at BAUD_TOL = 0 is the bound of R245; that the tolerance
shortens the bound is the model (log 25). -/
def Obligations.DatagramCommandDuration : Prop :=
  ∀ (c : Command) (s : State), rejection c = none →
    (field c.word 0 4 = 2 ∨ field c.word 0 4 = 3 ∨ (field c.word 0 4 = 1 ∧ field c.word 15 1 = 1)) →
    ∃ t, execute c s = .next t ∧ t.phase = .busy ∧
      s.timing.fClk.num * (80 * 1000000 * (s.timing.baudTol.den - s.timing.baudTol.num) +
          115200 * s.timing.baudTol.den * (7 * s.gapUs.toNat + s.settleUs.toNat)) ≤
        t.drainEdges * 115200 * 1000000 * s.timing.fClk.den * s.timing.baudTol.den

/-- The normal form replaces every run of Idle events by one Idle of their summed duration, anywhere in a trace. -/
def Obligations.NormalFormMergesIdles : Prop :=
  (∀ ds : List Word, normalForm (ds.map WireEvent.idle) = obsIdle (ds.map BitVec.toNat).sum) ∧
  (∀ (xs ys : List WireEvent) (b : Byte),
    normalForm (xs ++ .frame b :: ys) = normalForm xs ++ .frame b :: normalForm ys) ∧
  (∀ xs : List WireEvent, Merged (normalForm xs)) ∧
  ∀ (xs ys : List WireEvent) (a b : Word), a.toNat + b.toNat < 2 ^ 32 →
    normalForm (xs ++ .idle a :: .idle b :: ys) = normalForm (xs ++ .idle (a + b) :: ys) ∧
    normalForm (xs ++ .idle 0 :: ys) = normalForm (xs ++ ys)

/-- With no gap, eight TXB and a WAIT put the same observation on the line as WRREG. -/
def Obligations.HostBuiltDatagramLooksTheSame : Prop :=
  ∀ (a : Addr) (d : Word) (s : State), isChipAddr a = true → s.gapUs = 0 → s.pend = [] →
    normalForm ((hostBuilt s.settleUs (datagram a d)).foldl performWhole s).trace =
      normalForm (performWhole s ⟨0x00000002 ||| (a.setWidth 32 <<< 8), d⟩).trace

/-- What an accepted command adds to the line, and that an edge without one adds nothing. -/
def Obligations.AcceptedCommandsEmitTheirEvents : Prop :=
  ∀ s t : State, s.Inv → s.pins.rstN = true → step s = .next t →
    let w := s.pins.cmd.word
    let d := s.pins.cmd.data
    let op := field w 0 4
    ((s.pins.cmdValid = false ∨ s.cmdReady = false) → t.trace ++ t.pend = s.trace ++ s.pend) ∧
    (s.pins.cmdValid = true → s.cmdReady = true → t.trace = s.trace ∧
      t.pend =
        if (rejection s.pins.cmd).isSome then []
        else if op = 2 ∨ op = 3 ∨ (op = 1 ∧ field w 15 1 = 1) then
          sendEvents s.gapUs s.settleUs ((List.range 8).map t.dgramByte)
        else if op = 6 then .frame (d.setWidth 8) :: idleEvent s.gapUs
        else if op = 9 then idleEvent d
        else [])

/-- The six pseudo-instructions, .word and the .T suffix assemble to the commands the spec prints. -/
def Obligations.PseudoInstructionsExpand : Prop :=
  (asmSetDirection 1).map encode = [⟨0x00008031, 0x00000001⟩] ∧
  (asmVel (-1)).map encode = [⟨0x00002202, 0xFFFFFFFF⟩] ∧
  (asmSetcur 16 16 8).map encode =
    [⟨0x00001001, 0x00000010⟩, ⟨0x00001011, 0x00000010⟩, ⟨0x00009021, 0x00000008⟩] ∧
  (asmCrc8 [0x05, 0x00, 0xA2, 0x00, 0x00, 0x00, 0x01]).map encode =
    [⟨0x00000004, 0x00000000⟩, ⟨0x00000005, 0x00000005⟩, ⟨0x00000005, 0x00000000⟩, ⟨0x00000005, 0x000000A2⟩,
      ⟨0x00000005, 0x00000000⟩, ⟨0x00000005, 0x00000000⟩, ⟨0x00000005, 0x00000000⟩, ⟨0x00000005, 0x00000001⟩] ∧
  (asmDelayUs 100).map encode = [⟨0x00000009, 0x00000064⟩] ∧
  (asmDelayMs 1000).map encode = [⟨0x00000009, 0x000F4240⟩] ∧
  assembleLine ".word 0x0000000A, 0" = some [⟨0x0000000A, 0x00000000⟩] ∧
  assembleLine "SETF.IHOLD_IRUN.IHOLDDELAY.T 8" = some [⟨0x00009021, 0x00000008⟩]

/-- Every character is ten bit periods, each within BAUD_TOL of 1 / 115200 s, with the levels of its frame. -/
def Obligations.CharacterHoldsTheBaudTolerance : Prop :=
  ∀ (s : State) (b : Byte) (rest : List WireEvent),
    s.phase = .busy → s.pend = .frame b :: rest → s.bitIdx = 0 → s.timer = 0 →
    s.inputs.all HostInput.noReset = true →
    ∃ ns : List Nat, ns.length = 10 ∧ (∀ n ∈ ns, 0 < n) ∧
      ((∃ m, 0 < m ∧ s.timing.bitWithin m) → ∀ n ∈ ns, s.timing.bitWithin n) ∧
      (∀ k j, k < 10 → (ns.take k).sum ≤ j → j < (ns.take (k + 1)).sum →
        ∃ t, run j s = .next t ∧ t.pend = s.pend ∧ t.trace = s.trace ∧
          t.txLevel = (if k = 0 then false else if k = 9 then true else b.toNat.testBit (k - 1))) ∧
      ∃ t, run ns.sum s = .next t ∧ t.pend = rest ∧ t.trace = s.trace ++ [.frame b]

/-- Every number of edges within BAUD_TOL is a bit period of some run, and every one within DELAY_TOL_US an Idle of some run.
That a list of slack in the state chooses the duration, and that units end at edges, is the model (logs 4 and 5). -/
def Obligations.EveryDurationWithinTheTolerancesOccurs : Prop :=
  ∀ (s : State) (rest : List WireEvent) (n : Nat),
    s.phase = .busy → s.timer = 0 → s.inputs.all HostInput.noReset = true →
    (∀ (b : Byte) (k : Nat), s.pend = .frame b :: rest → s.bitIdx = k → k < 10 → 0 < n → s.timing.bitWithin n →
      ∃ sl : List Nat, unitLength s.timing (.frame b) (sl.headD 0) = n ∧
        (∀ j, j < n → ∃ t, run j { s with timing := { s.timing with slack := sl } } = .next t ∧
          t.pend = s.pend ∧ t.bitIdx = k ∧ t.trace = s.trace) ∧
        ∃ t, run n { s with timing := { s.timing with slack := sl } } = .next t ∧
          if k < 9 then t.pend = s.pend ∧ t.bitIdx = k + 1 ∧ t.trace = s.trace
          else t.pend = rest ∧ t.bitIdx = 0 ∧ t.trace = s.trace ++ [.frame b]) ∧
    (∀ d : Word, s.pend = .idle d :: rest → d ≠ 0 → s.timing.idleWithin d.toNat n →
      ∃ sl : List Nat, unitLength s.timing (.idle d) (sl.headD 0) = n ∧
        (∀ j, j < n → ∃ t, run j { s with timing := { s.timing with slack := sl } } = .next t ∧
          t.pend = s.pend ∧ t.trace = s.trace) ∧
        ∃ t, run n { s with timing := { s.timing with slack := sl } } = .next t ∧
          t.pend = rest ∧ t.trace = s.trace ++ [.idle d])
end

