-- ==== Sys2Proof/Laws/Decode.lean ====
section
/-! SUPPORT. The fields of a word built from fields, and the word built from its fields. -/

namespace Sys2Proof

/-- The bits of a word built from fields. -/
theorem getLsbD_mkWord (t : Bool) (a : Addr) (sel op : BitVec 4) (k : Nat) :
    (mkWord t a sel op).getLsbD k =
      if k < 4 then op.getLsbD k
      else if k < 8 then sel.getLsbD (k - 4)
      else if k < 15 then a.getLsbD (k - 8)
      else decide (k = 15) && t := by
  have hop : ¬ k < 4 → op.getLsbD k = false := fun h => BitVec.getLsbD_of_ge op k (by omega)
  have hsel : ¬ k < 8 → sel.getLsbD (k - 4) = false := fun h => BitVec.getLsbD_of_ge sel _ (by omega)
  have ha : ¬ k < 15 → a.getLsbD (k - 8) = false := fun h => BitVec.getLsbD_of_ge a _ (by omega)
  simp only [mkWord, BitVec.getLsbD_or, BitVec.getLsbD_shiftLeft, BitVec.getLsbD_setWidth, BitVec.getLsbD_ofBool]
  by_cases h1 : k < 4
  · have : k < 8 := by omega
    have : k < 15 := by omega
    have : k < 32 := by omega
    simp [*]
  · by_cases h2 : k < 8
    · have : k < 15 := by omega
      have : k < 32 := by omega
      have : k - 4 < 32 := by omega
      simp [*]
    · by_cases h3 : k < 15
      · have : k < 32 := by omega
        have : k - 8 < 32 := by omega
        simp [*]
      · by_cases h4 : k = 15
        · subst h4; simp_all
        · have h5 : k - 15 ≠ 0 := by omega
          simp [*]

@[simp] theorem opOf_mkWord (t : Bool) (a : Addr) (sel op : BitVec 4) : opOf (mkWord t a sel op) = op := by
  apply BitVec.eq_of_getLsbD_eq
  intro i hi
  simp [opOf, getLsbD_mkWord, hi]

@[simp] theorem selOf_mkWord (t : Bool) (a : Addr) (sel op : BitVec 4) : selOf (mkWord t a sel op) = sel := by
  apply BitVec.eq_of_getLsbD_eq
  intro i hi
  have h2 : 4 + i < 8 := by omega
  simp [selOf, getLsbD_mkWord, hi, h2]

@[simp] theorem addrOf_mkWord (t : Bool) (a : Addr) (sel op : BitVec 4) : addrOf (mkWord t a sel op) = a := by
  apply BitVec.eq_of_getLsbD_eq
  intro i hi
  have h1 : ¬ 8 + i < 4 := by omega
  have h2 : 8 + i < 15 := by omega
  simp [addrOf, getLsbD_mkWord, hi, h1, h2]

@[simp] theorem tOf_mkWord (t : Bool) (a : Addr) (sel op : BitVec 4) : tOf (mkWord t a sel op) = t := by
  rw [tOf, getLsbD_mkWord]; simp

@[simp] theorem highOf_mkWord (t : Bool) (a : Addr) (sel op : BitVec 4) : highOf (mkWord t a sel op) = 0#16 := by
  apply BitVec.eq_of_getLsbD_eq
  intro i hi
  have h1 : ¬ 16 + i < 4 := by omega
  have h2 : ¬ 16 + i < 8 := by omega
  have h3 : ¬ 16 + i < 15 := by omega
  have h4 : 16 + i ≠ 15 := by omega
  simp [highOf, getLsbD_mkWord, h1, h2, h3, h4]

/-- A word with zeros in `[31:16]` is built from its fields. -/
theorem mkWord_fields {w : Word} (h : highOf w = 0#16) : mkWord (tOf w) (addrOf w) (selOf w) (opOf w) = w := by
  apply BitVec.eq_of_getLsbD_eq
  intro i hi
  rw [getLsbD_mkWord]
  by_cases h1 : i < 4
  · simp [opOf, h1]
  · by_cases h2 : i < 8
    · have h3 : i - 4 < 4 := by omega
      have h4 : 4 + (i - 4) = i := by omega
      simp [selOf, h1, h2, h3, h4]
    · by_cases h5 : i < 15
      · have h7 : i - 8 < 7 := by omega
        have h8 : 8 + (i - 8) = i := by omega
        simp [addrOf, h1, h2, h5, h7, h8]
      · by_cases h9 : i = 15
        · subst h9; simp [tOf]
        · have hz := congrArg (fun v : BitVec 16 => v.getLsbD (i - 16)) h
          have h3 : i - 16 < 16 := by omega
          have h4 : 16 + (i - 16) = i := by omega
          have : w.getLsbD i = false := by simpa [highOf, h3, h4] using hz
          simp [h1, h2, h5, h9, this]

end Sys2Proof
end

