-- ==== Sys2Proof/Laws/State.lean ====
section
/-! SUPPORT. One lemma per field per update of State, true by computing, so that no later proof unfolds a record
update. `play` is the one update with two cases: what it leaves alone holds in both. -/

namespace Sys2Proof.Machine

@[simp] theorem State.reject_gconf (s : State) (c : ErrCode) : (s.reject c).gconf = s.gconf := rfl

@[simp] theorem State.reject_iholdIrun (s : State) (c : ErrCode) : (s.reject c).iholdIrun = s.iholdIrun := rfl

@[simp] theorem State.reject_chopconf (s : State) (c : ErrCode) : (s.reject c).chopconf = s.chopconf := rfl

@[simp] theorem State.reject_settleUs (s : State) (c : ErrCode) : (s.reject c).settleUs = s.settleUs := rfl

@[simp] theorem State.reject_gapUs (s : State) (c : ErrCode) : (s.reject c).gapUs = s.gapUs := rfl

@[simp] theorem State.reject_crcAcc (s : State) (c : ErrCode) : (s.reject c).crcAcc = s.crcAcc := rfl

@[simp] theorem State.reject_err (s : State) (c : ErrCode) : (s.reject c).err = errAfter s.err c := rfl

@[simp] theorem State.reject_dgram (s : State) (c : ErrCode) : (s.reject c).dgram = s.dgram := rfl

@[simp] theorem State.reject_phase (s : State) (c : ErrCode) : (s.reject c).phase = s.phase := rfl

@[simp] theorem State.reject_pend (s : State) (c : ErrCode) : (s.reject c).pend = s.pend := rfl

@[simp] theorem State.reject_bitIdx (s : State) (c : ErrCode) : (s.reject c).bitIdx = s.bitIdx := rfl

@[simp] theorem State.reject_timer (s : State) (c : ErrCode) : (s.reject c).timer = s.timer := rfl

@[simp] theorem State.reject_rstnLast (s : State) (c : ErrCode) : (s.reject c).rstnLast = s.rstnLast := rfl

@[simp] theorem State.reject_trace (s : State) (c : ErrCode) : (s.reject c).trace = s.trace := rfl

@[simp] theorem State.reject_inputs (s : State) (c : ErrCode) : (s.reject c).inputs = s.inputs := rfl

@[simp] theorem State.reject_timing (s : State) (c : ErrCode) : (s.reject c).timing = s.timing := rfl

@[simp] theorem State.buildDatagram_gconf (s : State) (a : Addr) (v : Word) : (s.buildDatagram a v).gconf = s.gconf := rfl

@[simp] theorem State.buildDatagram_iholdIrun (s : State) (a : Addr) (v : Word) : (s.buildDatagram a v).iholdIrun = s.iholdIrun := rfl

@[simp] theorem State.buildDatagram_chopconf (s : State) (a : Addr) (v : Word) : (s.buildDatagram a v).chopconf = s.chopconf := rfl

@[simp] theorem State.buildDatagram_settleUs (s : State) (a : Addr) (v : Word) : (s.buildDatagram a v).settleUs = s.settleUs := rfl

@[simp] theorem State.buildDatagram_gapUs (s : State) (a : Addr) (v : Word) : (s.buildDatagram a v).gapUs = s.gapUs := rfl

@[simp] theorem State.buildDatagram_crcAcc (s : State) (a : Addr) (v : Word) : (s.buildDatagram a v).crcAcc = s.crcAcc := rfl

@[simp] theorem State.buildDatagram_err (s : State) (a : Addr) (v : Word) : (s.buildDatagram a v).err = s.err := rfl

@[simp] theorem State.buildDatagram_dgram (s : State) (a : Addr) (v : Word) : (s.buildDatagram a v).dgram = Memory.writeFrom s.dgram 0 (datagram a v) := rfl

@[simp] theorem State.buildDatagram_phase (s : State) (a : Addr) (v : Word) : (s.buildDatagram a v).phase = s.phase := rfl

@[simp] theorem State.buildDatagram_pend (s : State) (a : Addr) (v : Word) : (s.buildDatagram a v).pend = s.pend := rfl

@[simp] theorem State.buildDatagram_bitIdx (s : State) (a : Addr) (v : Word) : (s.buildDatagram a v).bitIdx = s.bitIdx := rfl

@[simp] theorem State.buildDatagram_timer (s : State) (a : Addr) (v : Word) : (s.buildDatagram a v).timer = s.timer := rfl

@[simp] theorem State.buildDatagram_rstnLast (s : State) (a : Addr) (v : Word) : (s.buildDatagram a v).rstnLast = s.rstnLast := rfl

@[simp] theorem State.buildDatagram_trace (s : State) (a : Addr) (v : Word) : (s.buildDatagram a v).trace = s.trace := rfl

@[simp] theorem State.buildDatagram_inputs (s : State) (a : Addr) (v : Word) : (s.buildDatagram a v).inputs = s.inputs := rfl

@[simp] theorem State.buildDatagram_timing (s : State) (a : Addr) (v : Word) : (s.buildDatagram a v).timing = s.timing := rfl

@[simp] theorem State.play_gconf (s : State) (es : List WireEvent) : (s.play es).gconf = s.gconf := by
  unfold State.play; split <;> rfl

@[simp] theorem State.play_iholdIrun (s : State) (es : List WireEvent) : (s.play es).iholdIrun = s.iholdIrun := by
  unfold State.play; split <;> rfl

@[simp] theorem State.play_chopconf (s : State) (es : List WireEvent) : (s.play es).chopconf = s.chopconf := by
  unfold State.play; split <;> rfl

@[simp] theorem State.play_settleUs (s : State) (es : List WireEvent) : (s.play es).settleUs = s.settleUs := by
  unfold State.play; split <;> rfl

@[simp] theorem State.play_gapUs (s : State) (es : List WireEvent) : (s.play es).gapUs = s.gapUs := by
  unfold State.play; split <;> rfl

@[simp] theorem State.play_crcAcc (s : State) (es : List WireEvent) : (s.play es).crcAcc = s.crcAcc := by
  unfold State.play; split <;> rfl

@[simp] theorem State.play_err (s : State) (es : List WireEvent) : (s.play es).err = s.err := by
  unfold State.play; split <;> rfl

@[simp] theorem State.play_dgram (s : State) (es : List WireEvent) : (s.play es).dgram = s.dgram := by
  unfold State.play; split <;> rfl

@[simp] theorem State.play_rstnLast (s : State) (es : List WireEvent) : (s.play es).rstnLast = s.rstnLast := by
  unfold State.play; split <;> rfl

@[simp] theorem State.play_trace (s : State) (es : List WireEvent) : (s.play es).trace = s.trace := by
  unfold State.play; split <;> rfl

@[simp] theorem State.play_inputs (s : State) (es : List WireEvent) : (s.play es).inputs = s.inputs := by
  unfold State.play; split <;> rfl

@[simp] theorem State.play_timing (s : State) (es : List WireEvent) : (s.play es).timing = s.timing := by
  unfold State.play; split <;> rfl

@[simp] theorem State.sendDatagram_gconf (s : State) (a : Addr) (v : Word) : (s.sendDatagram a v).gconf = s.gconf := by
  simp [State.sendDatagram]

@[simp] theorem State.sendDatagram_iholdIrun (s : State) (a : Addr) (v : Word) : (s.sendDatagram a v).iholdIrun = s.iholdIrun := by
  simp [State.sendDatagram]

@[simp] theorem State.sendDatagram_chopconf (s : State) (a : Addr) (v : Word) : (s.sendDatagram a v).chopconf = s.chopconf := by
  simp [State.sendDatagram]

@[simp] theorem State.sendDatagram_settleUs (s : State) (a : Addr) (v : Word) : (s.sendDatagram a v).settleUs = s.settleUs := by
  simp [State.sendDatagram]

@[simp] theorem State.sendDatagram_gapUs (s : State) (a : Addr) (v : Word) : (s.sendDatagram a v).gapUs = s.gapUs := by
  simp [State.sendDatagram]

@[simp] theorem State.sendDatagram_crcAcc (s : State) (a : Addr) (v : Word) : (s.sendDatagram a v).crcAcc = s.crcAcc := by
  simp [State.sendDatagram]

@[simp] theorem State.sendDatagram_err (s : State) (a : Addr) (v : Word) : (s.sendDatagram a v).err = s.err := by
  simp [State.sendDatagram]

@[simp] theorem State.sendDatagram_dgram (s : State) (a : Addr) (v : Word) : (s.sendDatagram a v).dgram = Memory.writeFrom s.dgram 0 (datagram a v) := by
  simp [State.sendDatagram]

@[simp] theorem State.sendDatagram_rstnLast (s : State) (a : Addr) (v : Word) : (s.sendDatagram a v).rstnLast = s.rstnLast := by
  simp [State.sendDatagram]

@[simp] theorem State.sendDatagram_trace (s : State) (a : Addr) (v : Word) : (s.sendDatagram a v).trace = s.trace := by
  simp [State.sendDatagram]

@[simp] theorem State.sendDatagram_inputs (s : State) (a : Addr) (v : Word) : (s.sendDatagram a v).inputs = s.inputs := by
  simp [State.sendDatagram]

@[simp] theorem State.sendDatagram_timing (s : State) (a : Addr) (v : Word) : (s.sendDatagram a v).timing = s.timing := by
  simp [State.sendDatagram]

@[simp] theorem State.accepted_gconf (s : State) : (s.accepted).gconf = s.gconf := rfl

@[simp] theorem State.accepted_iholdIrun (s : State) : (s.accepted).iholdIrun = s.iholdIrun := rfl

@[simp] theorem State.accepted_chopconf (s : State) : (s.accepted).chopconf = s.chopconf := rfl

@[simp] theorem State.accepted_settleUs (s : State) : (s.accepted).settleUs = s.settleUs := rfl

@[simp] theorem State.accepted_gapUs (s : State) : (s.accepted).gapUs = s.gapUs := rfl

@[simp] theorem State.accepted_crcAcc (s : State) : (s.accepted).crcAcc = s.crcAcc := rfl

@[simp] theorem State.accepted_err (s : State) : (s.accepted).err = s.err := rfl

@[simp] theorem State.accepted_dgram (s : State) : (s.accepted).dgram = s.dgram := rfl

@[simp] theorem State.accepted_phase (s : State) : (s.accepted).phase = s.phase := rfl

@[simp] theorem State.accepted_pend (s : State) : (s.accepted).pend = s.pend := rfl

@[simp] theorem State.accepted_bitIdx (s : State) : (s.accepted).bitIdx = s.bitIdx := rfl

@[simp] theorem State.accepted_timer (s : State) : (s.accepted).timer = s.timer := rfl

@[simp] theorem State.accepted_rstnLast (s : State) : (s.accepted).rstnLast = true := rfl

@[simp] theorem State.accepted_trace (s : State) : (s.accepted).trace = s.trace := rfl

@[simp] theorem State.accepted_inputs (s : State) : (s.accepted).inputs = s.inputs.tail := rfl

@[simp] theorem State.accepted_timing (s : State) : (s.accepted).timing = s.timing := rfl

@[simp] theorem State.writeShadow_gconf_gconf (s : State) (v : Word) : (s.writeShadow .gconf v).gconf = v := rfl

@[simp] theorem State.writeShadow_gconf_iholdIrun (s : State) (v : Word) : (s.writeShadow .gconf v).iholdIrun = s.iholdIrun := rfl

@[simp] theorem State.writeShadow_gconf_chopconf (s : State) (v : Word) : (s.writeShadow .gconf v).chopconf = s.chopconf := rfl

@[simp] theorem State.writeShadow_gconf_settleUs (s : State) (v : Word) : (s.writeShadow .gconf v).settleUs = s.settleUs := rfl

@[simp] theorem State.writeShadow_gconf_gapUs (s : State) (v : Word) : (s.writeShadow .gconf v).gapUs = s.gapUs := rfl

@[simp] theorem State.writeShadow_gconf_crcAcc (s : State) (v : Word) : (s.writeShadow .gconf v).crcAcc = s.crcAcc := rfl

@[simp] theorem State.writeShadow_gconf_err (s : State) (v : Word) : (s.writeShadow .gconf v).err = s.err := rfl

@[simp] theorem State.writeShadow_gconf_dgram (s : State) (v : Word) : (s.writeShadow .gconf v).dgram = s.dgram := rfl

@[simp] theorem State.writeShadow_gconf_phase (s : State) (v : Word) : (s.writeShadow .gconf v).phase = s.phase := rfl

@[simp] theorem State.writeShadow_gconf_pend (s : State) (v : Word) : (s.writeShadow .gconf v).pend = s.pend := rfl

@[simp] theorem State.writeShadow_gconf_bitIdx (s : State) (v : Word) : (s.writeShadow .gconf v).bitIdx = s.bitIdx := rfl

@[simp] theorem State.writeShadow_gconf_timer (s : State) (v : Word) : (s.writeShadow .gconf v).timer = s.timer := rfl

@[simp] theorem State.writeShadow_gconf_rstnLast (s : State) (v : Word) : (s.writeShadow .gconf v).rstnLast = s.rstnLast := rfl

@[simp] theorem State.writeShadow_gconf_trace (s : State) (v : Word) : (s.writeShadow .gconf v).trace = s.trace := rfl

@[simp] theorem State.writeShadow_gconf_inputs (s : State) (v : Word) : (s.writeShadow .gconf v).inputs = s.inputs := rfl

@[simp] theorem State.writeShadow_gconf_timing (s : State) (v : Word) : (s.writeShadow .gconf v).timing = s.timing := rfl

@[simp] theorem State.writeShadow_iholdIrun_gconf (s : State) (v : Word) : (s.writeShadow .iholdIrun v).gconf = s.gconf := rfl

@[simp] theorem State.writeShadow_iholdIrun_iholdIrun (s : State) (v : Word) : (s.writeShadow .iholdIrun v).iholdIrun = v := rfl

@[simp] theorem State.writeShadow_iholdIrun_chopconf (s : State) (v : Word) : (s.writeShadow .iholdIrun v).chopconf = s.chopconf := rfl

@[simp] theorem State.writeShadow_iholdIrun_settleUs (s : State) (v : Word) : (s.writeShadow .iholdIrun v).settleUs = s.settleUs := rfl

@[simp] theorem State.writeShadow_iholdIrun_gapUs (s : State) (v : Word) : (s.writeShadow .iholdIrun v).gapUs = s.gapUs := rfl

@[simp] theorem State.writeShadow_iholdIrun_crcAcc (s : State) (v : Word) : (s.writeShadow .iholdIrun v).crcAcc = s.crcAcc := rfl

@[simp] theorem State.writeShadow_iholdIrun_err (s : State) (v : Word) : (s.writeShadow .iholdIrun v).err = s.err := rfl

@[simp] theorem State.writeShadow_iholdIrun_dgram (s : State) (v : Word) : (s.writeShadow .iholdIrun v).dgram = s.dgram := rfl

@[simp] theorem State.writeShadow_iholdIrun_phase (s : State) (v : Word) : (s.writeShadow .iholdIrun v).phase = s.phase := rfl

@[simp] theorem State.writeShadow_iholdIrun_pend (s : State) (v : Word) : (s.writeShadow .iholdIrun v).pend = s.pend := rfl

@[simp] theorem State.writeShadow_iholdIrun_bitIdx (s : State) (v : Word) : (s.writeShadow .iholdIrun v).bitIdx = s.bitIdx := rfl

@[simp] theorem State.writeShadow_iholdIrun_timer (s : State) (v : Word) : (s.writeShadow .iholdIrun v).timer = s.timer := rfl

@[simp] theorem State.writeShadow_iholdIrun_rstnLast (s : State) (v : Word) : (s.writeShadow .iholdIrun v).rstnLast = s.rstnLast := rfl

@[simp] theorem State.writeShadow_iholdIrun_trace (s : State) (v : Word) : (s.writeShadow .iholdIrun v).trace = s.trace := rfl

@[simp] theorem State.writeShadow_iholdIrun_inputs (s : State) (v : Word) : (s.writeShadow .iholdIrun v).inputs = s.inputs := rfl

@[simp] theorem State.writeShadow_iholdIrun_timing (s : State) (v : Word) : (s.writeShadow .iholdIrun v).timing = s.timing := rfl

@[simp] theorem State.writeShadow_chopconf_gconf (s : State) (v : Word) : (s.writeShadow .chopconf v).gconf = s.gconf := rfl

@[simp] theorem State.writeShadow_chopconf_iholdIrun (s : State) (v : Word) : (s.writeShadow .chopconf v).iholdIrun = s.iholdIrun := rfl

@[simp] theorem State.writeShadow_chopconf_chopconf (s : State) (v : Word) : (s.writeShadow .chopconf v).chopconf = v := rfl

@[simp] theorem State.writeShadow_chopconf_settleUs (s : State) (v : Word) : (s.writeShadow .chopconf v).settleUs = s.settleUs := rfl

@[simp] theorem State.writeShadow_chopconf_gapUs (s : State) (v : Word) : (s.writeShadow .chopconf v).gapUs = s.gapUs := rfl

@[simp] theorem State.writeShadow_chopconf_crcAcc (s : State) (v : Word) : (s.writeShadow .chopconf v).crcAcc = s.crcAcc := rfl

@[simp] theorem State.writeShadow_chopconf_err (s : State) (v : Word) : (s.writeShadow .chopconf v).err = s.err := rfl

@[simp] theorem State.writeShadow_chopconf_dgram (s : State) (v : Word) : (s.writeShadow .chopconf v).dgram = s.dgram := rfl

@[simp] theorem State.writeShadow_chopconf_phase (s : State) (v : Word) : (s.writeShadow .chopconf v).phase = s.phase := rfl

@[simp] theorem State.writeShadow_chopconf_pend (s : State) (v : Word) : (s.writeShadow .chopconf v).pend = s.pend := rfl

@[simp] theorem State.writeShadow_chopconf_bitIdx (s : State) (v : Word) : (s.writeShadow .chopconf v).bitIdx = s.bitIdx := rfl

@[simp] theorem State.writeShadow_chopconf_timer (s : State) (v : Word) : (s.writeShadow .chopconf v).timer = s.timer := rfl

@[simp] theorem State.writeShadow_chopconf_rstnLast (s : State) (v : Word) : (s.writeShadow .chopconf v).rstnLast = s.rstnLast := rfl

@[simp] theorem State.writeShadow_chopconf_trace (s : State) (v : Word) : (s.writeShadow .chopconf v).trace = s.trace := rfl

@[simp] theorem State.writeShadow_chopconf_inputs (s : State) (v : Word) : (s.writeShadow .chopconf v).inputs = s.inputs := rfl

@[simp] theorem State.writeShadow_chopconf_timing (s : State) (v : Word) : (s.writeShadow .chopconf v).timing = s.timing := rfl

@[simp] theorem State.readShadow_gconf (s : State) : s.readShadow .gconf = s.gconf := rfl

@[simp] theorem State.readShadow_iholdIrun (s : State) : s.readShadow .iholdIrun = s.iholdIrun := rfl

@[simp] theorem State.readShadow_chopconf (s : State) : s.readShadow .chopconf = s.chopconf := rfl

@[simp] theorem State.endEvent_gconf (s : State) (e : WireEvent) (rest : List WireEvent) : (s.endEvent e rest).gconf = s.gconf := rfl

@[simp] theorem State.endEvent_iholdIrun (s : State) (e : WireEvent) (rest : List WireEvent) : (s.endEvent e rest).iholdIrun = s.iholdIrun := rfl

@[simp] theorem State.endEvent_chopconf (s : State) (e : WireEvent) (rest : List WireEvent) : (s.endEvent e rest).chopconf = s.chopconf := rfl

@[simp] theorem State.endEvent_settleUs (s : State) (e : WireEvent) (rest : List WireEvent) : (s.endEvent e rest).settleUs = s.settleUs := rfl

@[simp] theorem State.endEvent_gapUs (s : State) (e : WireEvent) (rest : List WireEvent) : (s.endEvent e rest).gapUs = s.gapUs := rfl

@[simp] theorem State.endEvent_crcAcc (s : State) (e : WireEvent) (rest : List WireEvent) : (s.endEvent e rest).crcAcc = s.crcAcc := rfl

@[simp] theorem State.endEvent_err (s : State) (e : WireEvent) (rest : List WireEvent) : (s.endEvent e rest).err = s.err := rfl

@[simp] theorem State.endEvent_dgram (s : State) (e : WireEvent) (rest : List WireEvent) : (s.endEvent e rest).dgram = s.dgram := rfl

@[simp] theorem State.endEvent_phase (s : State) (e : WireEvent) (rest : List WireEvent) : (s.endEvent e rest).phase = if rest.isEmpty then .idle else s.phase := rfl

@[simp] theorem State.endEvent_pend (s : State) (e : WireEvent) (rest : List WireEvent) : (s.endEvent e rest).pend = rest := rfl

@[simp] theorem State.endEvent_bitIdx (s : State) (e : WireEvent) (rest : List WireEvent) : (s.endEvent e rest).bitIdx = 0 := rfl

@[simp] theorem State.endEvent_timer (s : State) (e : WireEvent) (rest : List WireEvent) : (s.endEvent e rest).timer = s.timer := rfl

@[simp] theorem State.endEvent_rstnLast (s : State) (e : WireEvent) (rest : List WireEvent) : (s.endEvent e rest).rstnLast = s.rstnLast := rfl

@[simp] theorem State.endEvent_trace (s : State) (e : WireEvent) (rest : List WireEvent) : (s.endEvent e rest).trace = s.trace ++ [e] := rfl

@[simp] theorem State.endEvent_inputs (s : State) (e : WireEvent) (rest : List WireEvent) : (s.endEvent e rest).inputs = s.inputs := rfl

@[simp] theorem State.endEvent_timing (s : State) (e : WireEvent) (rest : List WireEvent) : (s.endEvent e rest).timing = s.timing := rfl

@[simp] theorem State.present_gconf (s : State) (c : Command) : (s.present c).gconf = s.gconf := rfl

@[simp] theorem State.present_iholdIrun (s : State) (c : Command) : (s.present c).iholdIrun = s.iholdIrun := rfl

@[simp] theorem State.present_chopconf (s : State) (c : Command) : (s.present c).chopconf = s.chopconf := rfl

@[simp] theorem State.present_settleUs (s : State) (c : Command) : (s.present c).settleUs = s.settleUs := rfl

@[simp] theorem State.present_gapUs (s : State) (c : Command) : (s.present c).gapUs = s.gapUs := rfl

@[simp] theorem State.present_crcAcc (s : State) (c : Command) : (s.present c).crcAcc = s.crcAcc := rfl

@[simp] theorem State.present_err (s : State) (c : Command) : (s.present c).err = s.err := rfl

@[simp] theorem State.present_dgram (s : State) (c : Command) : (s.present c).dgram = s.dgram := rfl

@[simp] theorem State.present_phase (s : State) (c : Command) : (s.present c).phase = .idle := rfl

@[simp] theorem State.present_pend (s : State) (c : Command) : (s.present c).pend = [] := rfl

@[simp] theorem State.present_bitIdx (s : State) (c : Command) : (s.present c).bitIdx = 0 := rfl

@[simp] theorem State.present_timer (s : State) (c : Command) : (s.present c).timer = 0 := rfl

@[simp] theorem State.present_rstnLast (s : State) (c : Command) : (s.present c).rstnLast = true := rfl

@[simp] theorem State.present_trace (s : State) (c : Command) : (s.present c).trace = s.trace := rfl

@[simp] theorem State.present_inputs (s : State) (c : Command) : (s.present c).inputs = .offer c :: s.inputs := rfl

@[simp] theorem State.present_timing (s : State) (c : Command) : (s.present c).timing = s.timing := rfl

@[simp] theorem State.resetEdge_gconf (s : State) : (s.resetEdge).gconf = 0 := rfl

@[simp] theorem State.resetEdge_iholdIrun (s : State) : (s.resetEdge).iholdIrun = 0 := rfl

@[simp] theorem State.resetEdge_chopconf (s : State) : (s.resetEdge).chopconf = 0 := rfl

@[simp] theorem State.resetEdge_settleUs (s : State) : (s.resetEdge).settleUs = Config.settleResetUs := rfl

@[simp] theorem State.resetEdge_gapUs (s : State) : (s.resetEdge).gapUs = 0 := rfl

@[simp] theorem State.resetEdge_crcAcc (s : State) : (s.resetEdge).crcAcc = Config.crcInit := rfl

@[simp] theorem State.resetEdge_err (s : State) : (s.resetEdge).err = 0 := rfl

@[simp] theorem State.resetEdge_dgram (s : State) : (s.resetEdge).dgram = [] := rfl

@[simp] theorem State.resetEdge_phase (s : State) : (s.resetEdge).phase = .idle := rfl

@[simp] theorem State.resetEdge_pend (s : State) : (s.resetEdge).pend = [] := rfl

@[simp] theorem State.resetEdge_bitIdx (s : State) : (s.resetEdge).bitIdx = 0 := rfl

@[simp] theorem State.resetEdge_timer (s : State) : (s.resetEdge).timer = 0 := rfl

@[simp] theorem State.resetEdge_rstnLast (s : State) : (s.resetEdge).rstnLast = false := rfl

@[simp] theorem State.resetEdge_trace (s : State) : (s.resetEdge).trace = s.trace := rfl

@[simp] theorem State.resetEdge_inputs (s : State) : (s.resetEdge).inputs = s.inputs.tail := rfl

@[simp] theorem State.resetEdge_timing (s : State) : (s.resetEdge).timing = s.timing := rfl

end Sys2Proof.Machine
end

