-- ==== Sys2Proof/Laws/Durations.lean ====
section
/-! SUPPORT. How long a unit of the wire can last (42_transport.md R241, R242), said once. -/

namespace Sys2Proof.Machine

/-- A quotient rounded up is at most `n` exactly where the dividend is at most `n` divisors. -/
theorem ceilDiv_le_iff {a b n : Nat} (hb : 0 < b) : ceilDiv a b ≤ n ↔ a ≤ n * b := by
  rw [ceilDiv, Nat.div_le_iff_le_mul_add_pred hb, Nat.mul_comm b n]
  omega

theorem fewestEdges_pos (tb : Config.TimeBase) (e : WireEvent) : 0 < fewestEdges tb e := by
  cases e <;> simp [fewestEdges]

/-- A unit lasts at least the fewest edges. -/
theorem fewestEdges_le_unitLength (tb : Config.TimeBase) (e : WireEvent) (k : Nat) :
    fewestEdges tb e ≤ unitLength tb e k := Nat.le_add_right _ _

theorem unitLength_pos (tb : Config.TimeBase) (e : WireEvent) (k : Nat) : 0 < unitLength tb e k :=
  Nat.lt_of_lt_of_le (fewestEdges_pos tb e) (fewestEdges_le_unitLength tb e k)

theorem State.unitEdges_pos (s : State) (e : WireEvent) : 0 < s.unitEdges e := unitLength_pos _ _ _

/-- Where the tolerance allows any number of edges, a unit lasts at most the most edges. -/
theorem unitLength_le_mostEdges {tb : Config.TimeBase} {e : WireEvent} (h : fewestEdges tb e ≤ mostEdges tb e) (k : Nat) :
    unitLength tb e k ≤ mostEdges tb e := by
  unfold unitLength
  omega

/-- A number of edges that is neither too small nor too large is the length for the slack it needs. -/
theorem unitLength_of_between {tb : Config.TimeBase} {e : WireEvent} {n : Nat} (h₁ : fewestEdges tb e ≤ n)
    (h₂ : n ≤ mostEdges tb e) : unitLength tb e (n - fewestEdges tb e) = n := by
  unfold unitLength
  omega

/-- The positive numbers of edges between the fewest and the most are the bit periods within `BAUD_TOL`. -/
theorem bitWithin_iff (tb : Config.TimeBase) (b : Byte) {n : Nat} (hn : 0 < n) :
    tb.bitWithin n ↔ fewestEdges tb (.frame b) ≤ n ∧ n ≤ mostEdges tb (.frame b) := by
  have hb : 0 < Config.baud * (tb.fClk.den : Nat) * (tb.baudTol.den : Nat) :=
    Nat.mul_pos (Nat.mul_pos (by decide) tb.fClk.den.pos) tb.baudTol.den.pos
  simp only [fewestEdges, mostEdges, Nat.max_le, ceilDiv_le_iff hb, Nat.le_div_iff_mul_le hb, Config.TimeBase.bitWithin,
    Nat.mul_sub, Nat.mul_add, ← Nat.mul_assoc]
  omega

/-- The positive numbers of edges between the fewest and the most are the `Idle(d)` within `DELAY_TOL_US`. -/
theorem idleWithin_iff (tb : Config.TimeBase) (d : Word) {n : Nat} (hn : 0 < n) :
    tb.idleWithin d.toNat n ↔ fewestEdges tb (.idle d) ≤ n ∧ n ≤ mostEdges tb (.idle d) := by
  have h₁ : 0 < 1000000 * (tb.fClk.den : Nat) := Nat.mul_pos (by decide) tb.fClk.den.pos
  have h₂ : 0 < 1000000 * (tb.fClk.den : Nat) * (tb.delayTolUs.den : Nat) := Nat.mul_pos h₁ tb.delayTolUs.den.pos
  simp only [fewestEdges, mostEdges, Nat.max_le, ceilDiv_le_iff h₁, Nat.le_div_iff_mul_le h₂, Config.TimeBase.idleWithin,
    ← Nat.mul_assoc]
  omega

end Sys2Proof.Machine
end

