-- ==== Sys2Proof/Laws/Memory.lean ====
section
/-! SUPPORT. Reading after writing, and that writing keeps the canonical form. -/

namespace Sys2Proof.Machine

theorem Memory.read_erase (m : Memory) (a b : Nat) :
    Memory.read (Memory.erase m a) b = if b = a then Memory.unlisted else Memory.read m b := by
  induction m with
  | nil => simp [Memory.erase, Memory.read]
  | cons c m ih =>
    obtain ⟨x, v⟩ := c
    by_cases hx : a = x
    · by_cases hb : b = a
      · subst hb; subst hx; simpa [Memory.erase] using ih
      · subst hx; simp [Memory.erase, Memory.read, ih, hb]
    · by_cases hb : b = a
      · subst hb; simp [Memory.erase, Memory.read, hx, ih]
      · simp [Memory.erase, Memory.read, hx, ih, hb]

theorem Memory.read_insert (m : Memory) (a b : Nat) (v : Byte)
    (h : Memory.read m a = Memory.unlisted) (hm : Memory.erase m a = m) :
    Memory.read (Memory.insert m a v) b = if b = a then v else Memory.read m b := by
  induction m with
  | nil => simp [Memory.insert, Memory.read]
  | cons c m ih =>
    obtain ⟨x, u⟩ := c
    by_cases hx : a = x
    · subst hx
      have : (Memory.erase m a).length ≤ m.length := by
        clear ih h hm
        induction m with
        | nil => simp [Memory.erase]
        | cons c m ih => by_cases hc : a = c.1 <;> simp [Memory.erase, hc] at * <;> omega
      rw [Memory.erase, if_pos rfl] at hm
      have := congrArg List.length hm
      simp at this
      omega
    · have hm' : Memory.erase m a = m := by simpa [Memory.erase, hx] using hm
      have h' : Memory.read m a = Memory.unlisted := by simpa [Memory.read, hx] using h
      by_cases hlt : a < x
      · by_cases hb : b = a <;> simp [Memory.insert, Memory.read, hlt, hb]
      · by_cases hb : b = x
        · subst hb
          simp [Memory.insert, Memory.read, hlt, Ne.symm hx]
        · simp [Memory.insert, Memory.read, hlt, hb, ih h' hm']

theorem Memory.erase_erase (m : Memory) (a : Nat) :
    Memory.erase (Memory.erase m a) a = Memory.erase m a := by
  induction m with
  | nil => rfl
  | cons c m ih =>
    obtain ⟨x, v⟩ := c
    by_cases hx : a = x <;> simp [Memory.erase, hx]
    · simpa [hx] using ih
    · exact ih

/-- A read after a write: the written byte at its address, every other byte as before. -/
theorem Memory.read_write (m : Memory) (a b : Nat) (v : Byte) :
    Memory.read (Memory.write m a v) b = if b = a then v else Memory.read m b := by
  unfold Memory.write
  split
  · next h => rw [Memory.read_erase, h]
  · rw [Memory.read_insert _ _ _ _ (by simp [Memory.read_erase]) (Memory.erase_erase m a), Memory.read_erase]
    split <;> rfl

/-- What reading finds after bytes were written from address `a` up. -/
theorem Memory.read_writeFrom (vs : List Byte) : ∀ (m : Memory) (a b : Nat),
    Memory.read (Memory.writeFrom m a vs) b =
      if a ≤ b ∧ b < a + vs.length then vs.getD (b - a) 0 else Memory.read m b := by
  induction vs with
  | nil => intro m a b; simp [Memory.writeFrom]
  | cons v vs ih =>
    intro m a b
    rw [Memory.writeFrom, ih, Memory.read_write]
    by_cases h1 : b = a
    · subst h1; simp
    · by_cases h2 : a + 1 ≤ b ∧ b < a + 1 + vs.length
      · have h3 : a ≤ b ∧ b < a + (v :: vs).length := by simp; omega
        have h4 : b - a = b - (a + 1) + 1 := by omega
        rw [if_pos h2, if_pos h3, h4, List.getD_cons_succ]
      · have h3 : ¬ (a ≤ b ∧ b < a + (v :: vs).length) := by simp; omega
        rw [if_neg h2, if_neg h3, if_neg h1]

theorem Memory.mem_erase {m : Memory} {a : Nat} {c : Host.Cell} (h : c ∈ Memory.erase m a) : c ∈ m ∧ c.1 ≠ a := by
  induction m with
  | nil => simp [Memory.erase] at h
  | cons d m ih =>
    obtain ⟨x, v⟩ := d
    by_cases hx : a = x
    · rw [Memory.erase, if_pos hx] at h
      exact ⟨List.mem_cons_of_mem _ (ih h).1, (ih h).2⟩
    · rw [Memory.erase, if_neg hx, List.mem_cons] at h
      rcases h with h | h
      · subst h; exact ⟨List.mem_cons_self, fun e => hx e.symm⟩
      · exact ⟨List.mem_cons_of_mem _ (ih h).1, (ih h).2⟩

theorem Memory.mem_insert {m : Memory} {a : Nat} {v : Byte} {c : Host.Cell} (h : c ∈ Memory.insert m a v) :
    c = (a, v) ∨ c ∈ m := by
  induction m with
  | nil => simpa [Memory.insert] using h
  | cons d m ih =>
    obtain ⟨x, u⟩ := d
    by_cases hx : a < x
    · simpa [Memory.insert, hx] using h
    · rw [Memory.insert, if_neg hx, List.mem_cons] at h
      rcases h with h | h
      · exact .inr (h ▸ List.mem_cons_self)
      · exact (ih h).imp_right (List.mem_cons_of_mem _)

theorem Memory.erase_wf {m : Memory} (a : Nat) (h : Memory.wf m) : Memory.wf (Memory.erase m a) := by
  refine ⟨?_, fun c hc => h.2 c (Memory.mem_erase hc).1⟩
  have hp := h.1
  clear h
  induction m with
  | nil => exact List.Pairwise.nil
  | cons d m ih =>
    obtain ⟨x, u⟩ := d
    rw [List.pairwise_cons] at hp
    by_cases hx : a = x
    · rw [Memory.erase, if_pos hx]; exact ih hp.2
    · rw [Memory.erase, if_neg hx, List.pairwise_cons]
      exact ⟨fun c hc => hp.1 c (Memory.mem_erase hc).1, ih hp.2⟩

theorem Memory.insert_wf {m : Memory} {a : Nat} {v : Byte} (h : Memory.wf m) (ha : a < Config.dgramLen)
    (hv : v ≠ Memory.unlisted) (hm : ∀ c ∈ m, c.1 ≠ a) : Memory.wf (Memory.insert m a v) := by
  refine ⟨?_, fun c hc => ?_⟩
  · have hp := h.1
    clear h
    induction m with
    | nil => exact List.pairwise_singleton _ _
    | cons d m ih =>
      obtain ⟨x, u⟩ := d
      have hxa : x ≠ a := hm (x, u) List.mem_cons_self
      rw [List.pairwise_cons] at hp
      by_cases hx : a < x
      · rw [Memory.insert, if_pos hx, List.pairwise_cons, List.pairwise_cons]
        refine ⟨fun c hc => ?_, hp⟩
        rcases List.mem_cons.1 hc with hc | hc
        · subst hc; exact hx
        · exact Nat.lt_trans hx (hp.1 c hc)
      · rw [Memory.insert, if_neg hx, List.pairwise_cons]
        refine ⟨fun c hc => ?_, ih (fun c hc => hm c (List.mem_cons_of_mem _ hc)) hp.2⟩
        rcases Memory.mem_insert hc with hc | hc
        · subst hc; simp only; omega
        · exact hp.1 c hc
  · rcases Memory.mem_insert hc with hc | hc
    · subst hc; exact ⟨ha, hv⟩
    · exact h.2 c hc

/-- A write inside `DGRAM` keeps the canonical form. -/
theorem Memory.write_wf {m : Memory} {a : Nat} (v : Byte) (h : Memory.wf m) (ha : a < Config.dgramLen) :
    Memory.wf (Memory.write m a v) := by
  unfold Memory.write
  split
  · exact Memory.erase_wf a h
  · next hv => exact Memory.insert_wf (Memory.erase_wf a h) ha hv fun c hc => (Memory.mem_erase hc).2

/-- Writing bytes inside `DGRAM` keeps the canonical form. -/
theorem Memory.writeFrom_wf (vs : List Byte) : ∀ {m : Memory} {a : Nat}, Memory.wf m →
    a + vs.length ≤ Config.dgramLen → Memory.wf (Memory.writeFrom m a vs) := by
  induction vs with
  | nil => intro m a h _; exact h
  | cons v vs ih =>
    intro m a h ha
    simp only [List.length_cons] at ha
    exact ih (Memory.write_wf v h (by omega)) (by omega)

/-- The reset memory is canonical. -/
theorem Memory.reset_wf : Memory.wf ([] : Memory) := by simp [Memory.wf]

end Sys2Proof.Machine
end

