-- ==== Sys2Proof/Laws/Ops.lean ====
section
/-! SUPPORT. What each shared operation can do, said once, and what a performed instruction can do. -/

namespace Sys2Proof.Machine

/-- `play` leaves the state alone, or starts the transmitter with what is emitted. -/
theorem State.play_cases (s : State) (es : List WireEvent) :
    (emitted es = [] ∧ s.play es = s) ∨
    (∃ e rest, emitted es = e :: rest ∧
      s.play es = { s with phase := .busy, pend := e :: rest, bitIdx := 0, timer := 0 }) := by
  unfold State.play
  split
  · exact .inl ⟨‹_›, rfl⟩
  · next e rest h => exact .inr ⟨e, rest, h, rfl⟩

theorem idle_zero_not_mem_emitted (es : List WireEvent) : WireEvent.idle 0#32 ∉ emitted es := by
  induction es with
  | nil => simp [emitted]
  | cons e es ih =>
    cases e with
    | frame b => simpa [emitted] using ih
    | idle d =>
      by_cases hd : d = 0#32
      · simpa [emitted, hd] using ih
      · simpa [emitted, hd, Ne.symm hd] using ih

theorem emitted_append (xs ys : List WireEvent) : emitted (xs ++ ys) = emitted xs ++ emitted ys := by
  induction xs with
  | nil => rfl
  | cons e xs ih =>
    cases e with
    | frame b => simp [emitted, ih]
    | idle d => by_cases hd : d = 0#32 <;> simp [emitted, hd, ih]

@[simp] theorem datagram_length (a : Addr) (v : Word) : (datagram a v).length = 8 := rfl

/-- The eight bytes of `DGRAM` after a datagram was sent, and every other byte. -/
theorem State.sendDatagram_dgramByte (s : State) (a : Addr) (v : Word) (i : Nat) :
    (s.sendDatagram a v).dgramByte i = if i < 8 then (datagram a v).getD i 0 else s.dgramByte i := by
  unfold State.dgramByte
  rw [State.sendDatagram_dgram, Memory.read_writeFrom]
  simp

/-- The events of a datagram begin with the sync byte, so a datagram always makes the block busy. -/
theorem State.sendDatagram_busy (s : State) (a : Addr) (v : Word) :
    ∃ rest, emitted (datagramEvents s.gapUs s.settleUs (datagram a v)) = .frame Config.sync :: rest ∧
      s.sendDatagram a v =
        { s.buildDatagram a v with phase := .busy, pend := .frame Config.sync :: rest, bitIdx := 0, timer := 0 } := by
  have h : ∃ rest, emitted (datagramEvents s.gapUs s.settleUs (datagram a v)) = .frame Config.sync :: rest := by
    simp [datagramEvents, datagram, datagramHead, framesWithGap, emitted]
  obtain ⟨rest, h⟩ := h
  exact ⟨rest, h, by rw [State.sendDatagram, State.play, h]⟩

/-- A shadow register reads as what was written. -/
@[simp] theorem State.readShadow_writeShadow (s : State) (r : ShadowReg) (v : Word) :
    (s.writeShadow r v).readShadow r = v := by cases r <;> rfl

/-- A data word is a byte operand exactly below 256. -/
theorem isByteOperand_iff (d : Word) : isByteOperand d = true ↔ d.toNat < 256 := by
  have := d.isLt
  simp only [isByteOperand, beq_iff_eq, BitVec.toNat_eq]
  simp [Nat.shiftRight_eq_div_pow]
  omega

/-- A value over the field's largest is rejected. -/
theorem setField_rejects {f : FieldRow} {d : Word} (h : f.max.toNat < d.toNat) (t : Bool) (s : State) :
    setField f t d s = .next (s.reject .eRange) := if_pos h

/-- Without `T`, a legal value is written and nothing sent. -/
theorem setField_writes {f : FieldRow} {d : Word} (h : d.toNat ≤ f.max.toNat) (s : State) :
    setField f false d s = .next (s.writeShadow f.reg (f.set (s.readShadow f.reg) d)) :=
  if_neg (Nat.not_lt.2 h)

/-- With `T`, a legal value is written and the register sent with it. -/
theorem setField_sends {f : FieldRow} {d : Word} (h : d.toNat ≤ f.max.toNat) (s : State) :
    setField f true d s =
      .next ((s.writeShadow f.reg (f.set (s.readShadow f.reg) d)).sendDatagram f.reg.addr
        (f.set (s.readShadow f.reg) d)) := by
  refine (if_neg (Nat.not_lt.2 h)).trans ?_
  simp

/-- What a performed instruction can have done to the state. -/
inductive Effect (s : State) : State → Prop where
  | nothing : Effect s s
  | rejected (c : ErrCode) : Effect s (s.reject c)
  | field (f : FieldRow) (d : Word) (hf : f ∈ Layout.all) (hd : ¬ f.max < d) :
      Effect s (s.writeShadow f.reg (f.set (s.readShadow f.reg) d))
  | fieldSent (f : FieldRow) (d : Word) (a : Addr) (v : Word) (hf : f ∈ Layout.all) (hd : ¬ f.max < d) :
      Effect s ((s.writeShadow f.reg (f.set (s.readShadow f.reg) d)).sendDatagram a v)
  | sent (a : Addr) (v : Word) : Effect s (s.sendDatagram a v)
  | played (es : List WireEvent) : Effect s (s.play es)
  | crc (c : Byte) : Effect s { s with crcAcc := c }
  | settle (d : Word) : Effect s { s with settleUs := d }
  | gap (d : Word) : Effect s { s with gapUs := d }

/-- A field setter rejects, writes, or writes and sends. -/
theorem setField_effect (f : FieldRow) (hf : f ∈ Layout.all) (t : Bool) (d : Word) (s : State) :
    ∃ s', setField f t d s = .next s' ∧ Effect s s' := by
  unfold setField
  by_cases hd : f.max < d
  · exact ⟨_, if_pos hd, .rejected _⟩
  · rw [if_neg hd]
    cases t with
    | false => exact ⟨_, rfl, .field f d hf hd⟩
    | true => exact ⟨_, rfl, .fieldSent f d _ _ hf hd⟩

/-- Every instruction completes, with one of the effects. -/
theorem exec_effect (i : Instr) (s : State) : ∃ s', exec i s = .next s' ∧ Effect s s' := by
  cases i with
  | nop d => exact ⟨_, rfl, .nothing⟩
  | wrreg a d =>
    simp only [exec, execWrreg]
    split
    · exact ⟨_, rfl, .sent _ _⟩
    · exact ⟨_, rfl, .rejected _⟩
  | send a d =>
    simp only [exec, execSend]
    split
    · exact ⟨_, rfl, .sent _ _⟩
    · exact ⟨_, rfl, .rejected _⟩
  | crcClr d => exact ⟨_, rfl, .crc _⟩
  | crcByte d =>
    simp only [exec, execCrcByte]
    split
    · exact ⟨_, rfl, .crc _⟩
    · exact ⟨_, rfl, .rejected _⟩
  | txb d =>
    simp only [exec, execTxb]
    split
    · exact ⟨_, rfl, .played _⟩
    · exact ⟨_, rfl, .rejected _⟩
  | setsettle d => exact ⟨_, rfl, .settle _⟩
  | setgap d => exact ⟨_, rfl, .gap _⟩
  | wait d => exact ⟨_, rfl, .played _⟩
  | _ t d => exact setField_effect _ (by decide) t d s

theorem Effect.of_exec {i : Instr} {s t : State} (h : exec i s = .next t) : Effect s t := by
  obtain ⟨s', h', he⟩ := exec_effect i s
  rw [h] at h'
  cases h'
  exact he

/-- What no instruction touches. -/
theorem Effect.frame {s t : State} (h : Effect s t) :
    t.trace = s.trace ∧ t.inputs = s.inputs ∧ t.timing = s.timing ∧ t.rstnLast = s.rstnLast := by
  cases h with
  | field f d hf hd => cases hr : f.reg <;> simp
  | fieldSent f d a v hf hd => cases hr : f.reg <;> simp
  | _ => simp

end Sys2Proof.Machine
end

