-- ==== Sys2Proof/Laws/Fields.lean ====
section
/-! SUPPORT. Writing a field, bit by bit, and what it keeps (40_register_model.md R123, R124). -/

namespace Sys2Proof.Machine

/-- Every field of the layout lies inside a word, and its largest value inside the field. -/
theorem Layout.fits : ∀ f ∈ Layout.all, f.lo + f.width ≤ 32 ∧ f.max.toNat < 2 ^ f.width := by decide

theorem getLsbD_mask (w k : Nat) (h : w ≤ 32) : (mask w).getLsbD k = decide (k < w) := by
  rw [mask, BitVec.getLsbD_ofNat, Nat.testBit_two_pow_sub_one]
  by_cases hk : k < w
  · have : k < 32 := by omega
    simp [hk, this]
  · simp [hk]

theorem FieldRow.getLsbD_bits {f : FieldRow} (hf : f.lo + f.width ≤ 32) (k : Nat) :
    f.bits.getLsbD k = decide (f.lo ≤ k ∧ k < f.lo + f.width) := by
  rw [FieldRow.bits, BitVec.getLsbD_shiftLeft, getLsbD_mask _ _ (by omega)]
  by_cases h1 : k < f.lo
  · have : ¬ f.lo ≤ k := by omega
    simp [h1]
  · by_cases h2 : k < f.lo + f.width
    · have h3 : k - f.lo < f.width := by omega
      have h4 : k < 32 := by omega
      have h5 : f.lo ≤ k := by omega
      simp [h1, h2, h3, h4, h5]
    · have h3 : ¬ k - f.lo < f.width := by omega
      simp [h2, h3]

/-- A field write, bit by bit. -/
theorem FieldRow.getLsbD_set {f : FieldRow} (hf : f ∈ Layout.all) {d : Word} (hd : d.toNat ≤ f.max.toNat) (x : Word)
    (k : Nat) :
    (f.set x d).getLsbD k = if f.lo ≤ k ∧ k < f.lo + f.width then d.getLsbD (k - f.lo) else x.getLsbD k := by
  obtain ⟨hw, hm⟩ := Layout.fits f hf
  have hdk : ∀ j, f.width ≤ j → d.getLsbD j = false := by
    intro j hj
    rw [← BitVec.testBit_toNat]
    exact Nat.testBit_lt_two_pow (by
      have : 2 ^ f.width ≤ 2 ^ j := Nat.pow_le_pow_right (by decide) hj
      omega)
  rw [FieldRow.set, BitVec.getLsbD_or, BitVec.getLsbD_and, BitVec.getLsbD_not, f.getLsbD_bits hw,
    BitVec.getLsbD_shiftLeft]
  by_cases h1 : f.lo ≤ k ∧ k < f.lo + f.width
  · have h2 : k < 32 := by omega
    have h3 : ¬ k < f.lo := by omega
    simp [h1, h2, h3]
  · by_cases h2 : k < f.lo
    · have h3 : k < 32 := by omega
      have h4 : ¬ f.lo ≤ k := by omega
      simp [h2, h3, h4]
    · have h3 : d.getLsbD (k - f.lo) = false := hdk _ (by omega)
      rw [h3]
      by_cases h4 : k < 32
      · simp [h1, h4]
      · simp [h1, h4, BitVec.getLsbD_of_ge x k (by omega)]

/-- The field mask of a register. -/
def fieldMaskOf : ShadowReg → Word
  | .gconf => gconfFieldMask
  | .iholdIrun => iholdIrunFieldMask
  | .chopconf => chopconfFieldMask

/-- Every bit of a field is a bit of its register's field mask. -/
theorem Layout.inMask : ∀ f ∈ Layout.all, ∀ k, k < 32 → f.lo ≤ k ∧ k < f.lo + f.width →
    (fieldMaskOf f.reg).getLsbD k = true := by decide

/-- A field write keeps the reserved bits 0. -/
theorem FieldRow.set_reserved {f : FieldRow} (hf : f ∈ Layout.all) {d : Word} (hd : d.toNat ≤ f.max.toNat) {x : Word}
    (hx : x &&& ~~~fieldMaskOf f.reg = 0#32) : f.set x d &&& ~~~fieldMaskOf f.reg = 0#32 := by
  apply BitVec.eq_of_getLsbD_eq
  intro k hk
  have hxk := congrArg (fun v : Word => v.getLsbD k) hx
  simp only [BitVec.getLsbD_and, BitVec.getLsbD_not, BitVec.getLsbD_zero] at hxk ⊢
  rw [FieldRow.getLsbD_set hf hd]
  split
  · next h => simp [Layout.inMask f hf k hk h]
  · exact hxk

end Sys2Proof.Machine
end

