-- ==== Sys2Proof/Laws/PerInstr.lean ====
section
/-! SUPPORT. The law of every instruction's encoding: the words of a well-formed instruction fit exactly one row of
the opcode table, its own (30_encoding.md R82, R91). -/

namespace Sys2Proof.Laws.OwnRow

/-- A well-formed instruction's word fits its own row of the opcode table and no other. -/
def Statement (i : Instr) : Prop :=
  i.wellFormed = true → ((opcodeTable.filter fun r => r.fits (encode i).word).map fun r => r.mnemonic) = [i.mnemonic]

/-- The chip addresses are four. -/
theorem chipAddr_cases {a : Addr} (h : isChipAddr a = true) : a = 0x00 ∨ a = 0x10 ∨ a = 0x6C ∨ a = 0x22 := by
  simpa [isChipAddr, isShadowAddr, Config.addrGconf, Config.addrIholdIrun, Config.addrChopconf, Config.addrVactual,
    or_assoc] using h

/-- The shadow addresses are three. -/
theorem shadowAddr_cases {a : Addr} (h : isShadowAddr a = true) : a = 0x00 ∨ a = 0x10 ∨ a = 0x6C := by
  simpa [isShadowAddr, Config.addrGconf, Config.addrIholdIrun, Config.addrChopconf, or_assoc] using h

theorem nop (d : Word) : Statement (.nop d) := fun _ => by (simp only [encode, Instr.mnemonic]; decide)

theorem wrreg (a : Addr) (d : Word) : Statement (.wrreg a d) := by
  intro h
  rcases chipAddr_cases h with rfl | rfl | rfl | rfl <;> (simp only [encode, Instr.mnemonic]; decide)

theorem send (a : Addr) (d : Word) : Statement (.send a d) := by
  intro h
  rcases shadowAddr_cases h with rfl | rfl | rfl <;> (simp only [encode, Instr.mnemonic]; decide)

theorem crcClr (d : Word) : Statement (.crcClr d) := fun _ => by (simp only [encode, Instr.mnemonic]; decide)

theorem crcByte (d : Word) : Statement (.crcByte d) := fun _ => by (simp only [encode, Instr.mnemonic]; decide)

theorem txb (d : Word) : Statement (.txb d) := fun _ => by (simp only [encode, Instr.mnemonic]; decide)

theorem setsettle (d : Word) : Statement (.setsettle d) := fun _ => by (simp only [encode, Instr.mnemonic]; decide)

theorem setgap (d : Word) : Statement (.setgap d) := fun _ => by (simp only [encode, Instr.mnemonic]; decide)

theorem wait (d : Word) : Statement (.wait d) := fun _ => by (simp only [encode, Instr.mnemonic]; decide)

theorem setfGconfIScaleAnalog (t : Bool) (d : Word) : Statement (.setfGconfIScaleAnalog t d) := fun _ => by cases t <;> (simp only [encode, Instr.mnemonic]; decide)

theorem setfGconfInternalRsense (t : Bool) (d : Word) : Statement (.setfGconfInternalRsense t d) := fun _ => by cases t <;> (simp only [encode, Instr.mnemonic]; decide)

theorem setfGconfEnSpreadcycle (t : Bool) (d : Word) : Statement (.setfGconfEnSpreadcycle t d) := fun _ => by cases t <;> (simp only [encode, Instr.mnemonic]; decide)

theorem setfGconfShaft (t : Bool) (d : Word) : Statement (.setfGconfShaft t d) := fun _ => by cases t <;> (simp only [encode, Instr.mnemonic]; decide)

theorem setfGconfIndexOtpw (t : Bool) (d : Word) : Statement (.setfGconfIndexOtpw t d) := fun _ => by cases t <;> (simp only [encode, Instr.mnemonic]; decide)

theorem setfGconfIndexStep (t : Bool) (d : Word) : Statement (.setfGconfIndexStep t d) := fun _ => by cases t <;> (simp only [encode, Instr.mnemonic]; decide)

theorem setfGconfPdnDisable (t : Bool) (d : Word) : Statement (.setfGconfPdnDisable t d) := fun _ => by cases t <;> (simp only [encode, Instr.mnemonic]; decide)

theorem setfGconfMstepRegSelect (t : Bool) (d : Word) : Statement (.setfGconfMstepRegSelect t d) := fun _ => by cases t <;> (simp only [encode, Instr.mnemonic]; decide)

theorem setfGconfMultistepFilt (t : Bool) (d : Word) : Statement (.setfGconfMultistepFilt t d) := fun _ => by cases t <;> (simp only [encode, Instr.mnemonic]; decide)

theorem setfGconfTestMode (t : Bool) (d : Word) : Statement (.setfGconfTestMode t d) := fun _ => by cases t <;> (simp only [encode, Instr.mnemonic]; decide)

theorem setfIholdIrunIhold (t : Bool) (d : Word) : Statement (.setfIholdIrunIhold t d) := fun _ => by cases t <;> (simp only [encode, Instr.mnemonic]; decide)

theorem setfIholdIrunIrun (t : Bool) (d : Word) : Statement (.setfIholdIrunIrun t d) := fun _ => by cases t <;> (simp only [encode, Instr.mnemonic]; decide)

theorem setfIholdIrunIholddelay (t : Bool) (d : Word) : Statement (.setfIholdIrunIholddelay t d) := fun _ => by cases t <;> (simp only [encode, Instr.mnemonic]; decide)

theorem setfChopconfToff (t : Bool) (d : Word) : Statement (.setfChopconfToff t d) := fun _ => by cases t <;> (simp only [encode, Instr.mnemonic]; decide)

theorem setfChopconfHstrt (t : Bool) (d : Word) : Statement (.setfChopconfHstrt t d) := fun _ => by cases t <;> (simp only [encode, Instr.mnemonic]; decide)

theorem setfChopconfHend (t : Bool) (d : Word) : Statement (.setfChopconfHend t d) := fun _ => by cases t <;> (simp only [encode, Instr.mnemonic]; decide)

theorem setfChopconfTbl (t : Bool) (d : Word) : Statement (.setfChopconfTbl t d) := fun _ => by cases t <;> (simp only [encode, Instr.mnemonic]; decide)

theorem setfChopconfVsense (t : Bool) (d : Word) : Statement (.setfChopconfVsense t d) := fun _ => by cases t <;> (simp only [encode, Instr.mnemonic]; decide)

theorem setfChopconfMres (t : Bool) (d : Word) : Statement (.setfChopconfMres t d) := fun _ => by cases t <;> (simp only [encode, Instr.mnemonic]; decide)

theorem setfChopconfIntpol (t : Bool) (d : Word) : Statement (.setfChopconfIntpol t d) := fun _ => by cases t <;> (simp only [encode, Instr.mnemonic]; decide)

theorem setfChopconfDedge (t : Bool) (d : Word) : Statement (.setfChopconfDedge t d) := fun _ => by cases t <;> (simp only [encode, Instr.mnemonic]; decide)

theorem setfChopconfDiss2g (t : Bool) (d : Word) : Statement (.setfChopconfDiss2g t d) := fun _ => by cases t <;> (simp only [encode, Instr.mnemonic]; decide)

theorem setfChopconfDiss2vs (t : Bool) (d : Word) : Statement (.setfChopconfDiss2vs t d) := fun _ => by cases t <;> (simp only [encode, Instr.mnemonic]; decide)

end Sys2Proof.Laws.OwnRow
end

