-- ==== Sys2Proof/Laws/Step.lean ====
section
/-! SUPPORT. What a step can do, said once, and the small facts about runs. -/

namespace Sys2Proof.Machine

/-- Every command completes: rejected, or with the effect of its instruction. -/
theorem execute_effect (c : Command) (s : State) : ∃ s', execute c s = .next s' ∧ Effect s s' := by
  unfold execute
  split
  · exact ⟨_, rfl, .rejected _⟩
  · exact exec_effect _ s

/-- A step is a reset edge, an accepted command, or an edge of the transmitter alone. -/
theorem step_cases (s : State) :
    (s.pins.rstN = false ∧ step s = .next s.resetEdge) ∨
    (s.pins.rstN = true ∧ s.pins.cmdValid = true ∧ s.cmdReady = true ∧
      step s = execute s.pins.cmd s.accepted) ∨
    (s.pins.rstN = true ∧ (s.pins.cmdValid = false ∨ s.cmdReady = false) ∧
      step s = .next s.noCommandEdge) := by
  unfold step State.edgeKind
  cases hr : s.pins.rstN <;> cases hv : s.pins.cmdValid <;> cases hc : s.cmdReady <;> simp

/-- The transmitter at an edge: nothing to play, the unit goes on, the unit ends, or the event ends. -/
theorem State.tick_cases (s : State) :
    (s.pend = [] ∧ s.tick = { s with phase := .idle }) ∨
    (∃ e rest, s.pend = e :: rest ∧ s.timer + 1 < s.unitEdges e ∧ s.tick = { s with timer := s.timer + 1 }) ∨
    (∃ e rest, s.pend = e :: rest ∧ ¬ s.timer + 1 < s.unitEdges e ∧ isLastUnit e s.bitIdx = false ∧
      s.tick = { s with timer := 0, timing := nextUnit s.timing, bitIdx := s.bitIdx + 1 }) ∨
    (∃ e rest, s.pend = e :: rest ∧ ¬ s.timer + 1 < s.unitEdges e ∧ isLastUnit e s.bitIdx = true ∧
      s.tick = { s with
        timer := 0, timing := nextUnit s.timing, pend := rest, bitIdx := 0, trace := s.trace ++ [e]
        phase := if rest.isEmpty then .idle else s.phase }) := by
  unfold State.tick
  split
  · exact .inl ⟨‹_›, rfl⟩
  · next e rest hp =>
    by_cases ht : s.timer + 1 < s.unitEdges e
    · exact .inr (.inl ⟨e, rest, hp, ht, if_pos ht⟩)
    · cases hl : isLastUnit e s.bitIdx with
      | false => exact .inr (.inr (.inl ⟨e, rest, hp, ht, hl, by simp [ht]⟩))
      | true => exact .inr (.inr (.inr ⟨e, rest, hp, ht, hl, by simp [ht, State.endEvent]⟩))

/-- The transmitter touches no register. -/
theorem State.tick_registers (s : State) :
    s.tick.gconf = s.gconf ∧ s.tick.iholdIrun = s.iholdIrun ∧ s.tick.chopconf = s.chopconf ∧
      s.tick.settleUs = s.settleUs ∧ s.tick.gapUs = s.gapUs ∧ s.tick.crcAcc = s.crcAcc ∧
      s.tick.err = s.err ∧ s.tick.dgram = s.dgram ∧ s.tick.rstnLast = s.rstnLast ∧ s.tick.inputs = s.inputs := by
  rcases s.tick_cases with ⟨_, h⟩ | ⟨_, _, _, _, h⟩ | ⟨_, _, _, _, _, h⟩ | ⟨_, _, _, _, _, h⟩ <;>
    rw [h] <;> simp

@[simp] theorem run_zero (s : State) : run 0 s = .next s := rfl

theorem run_succ (n : Nat) (s : State) :
    run (n + 1) s = match step s with
      | .next s' => run n s'
      | .fault r => .fault r
      | .refused r => .refused r := rfl

/-- `run` is the host's run of this machine. -/
theorem run_eq_core_run (n : Nat) : ∀ s : State, run n s = Host.Core.run Sys2Proof.core n s := by
  induction n with
  | zero => intro s; rfl
  | succ n ih =>
    intro s
    refine Eq.trans ?_ (Host.Core.run.eq_2 Sys2Proof.core s n).symm
    have h : Sys2Proof.core.step s = step s := rfl
    generalize hx : Sys2Proof.core.step s = x at h ⊢
    rw [run_succ, ← h]
    cases x with
    | next s' => exact ih s'
    | fault r => rfl
    | refused r => rfl

/-- The first step, then the rest. -/
theorem run_succ_of_step {n : Nat} {s t : State} (h : step s = .next t) : run (n + 1) s = run n t := by
  rw [run_succ, h]

/-- Runs compose. -/
theorem run_add {m : Nat} : ∀ {n : Nat} {s t : State}, run n s = .next t → run (n + m) s = run m t := by
  intro n
  induction n with
  | zero => intro s t h; cases h; simp
  | succ n ih =>
    intro s t h
    rw [run_succ] at h
    rw [Nat.add_right_comm, run_succ]
    cases hs : step s with
    | next s' => rw [hs] at h; exact ih h
    | fault r => cases r
    | refused r => rw [hs] at h; cases h

end Sys2Proof.Machine
end

