-- ==== Sys2Proof/Laws/Runs.lean ====
section
/-! SUPPORT. What a busy block does through one unit of the wire, said once: it goes on with the unit, then the unit ends. -/

namespace Sys2Proof.Machine

theorem afterNoCommand_noReset {l : List HostInput} (h : l.all HostInput.noReset = true) :
    (afterNoCommand l).all HostInput.noReset = true := by
  cases l with
  | nil => rfl
  | cons i l => cases i <;> simp_all [afterNoCommand]

/-- A busy block whose host pulls no reset steps by its transmitter alone. -/
theorem step_of_busy {s : State} (hb : s.phase = .busy) (hn : s.inputs.all HostInput.noReset = true) :
    step s = .next s.noCommandEdge := by
  have hr : s.pins.rstN = true := by
    unfold State.pins
    split
    · rfl
    · next p l h =>
      simp only [h, List.all_cons, Bool.and_eq_true] at hn
      exact hn.1
    · rfl
  have hc : s.cmdReady = false := by simp [State.cmdReady, hb]
  simp [step, State.edgeKind, hr, hc]

/-- One more edge of a run that has come to a busy state. -/
theorem run_succ_of_busy {j : Nat} {s t : State} (hr : run j s = .next t) (hb : t.phase = .busy)
    (hn : t.inputs.all HostInput.noReset = true) : run (j + 1) s = .next t.noCommandEdge := by
  rw [run_add hr, run_succ_of_step (step_of_busy hb hn), run_zero]

/-- The transmitter at an edge that does not end the unit. -/
theorem State.tick_of_lt {s : State} {e : WireEvent} {rest : List WireEvent} (hp : s.pend = e :: rest)
    (h : s.timer + 1 < s.unitEdges e) : s.tick = { s with timer := s.timer + 1 } := by
  rcases s.tick_cases with ⟨h0, _⟩ | ⟨e', r', h0, _, ht⟩ | ⟨e', r', h0, hn, _⟩ | ⟨e', r', h0, hn, _⟩
  · simp [hp] at h0
  · exact ht
  all_goals
    rw [hp] at h0
    cases h0
    exact absurd h hn

/-- The transmitter at the edge that ends the unit. -/
theorem State.tick_of_not_lt {s : State} {e : WireEvent} {rest : List WireEvent} (hp : s.pend = e :: rest)
    (h : ¬ s.timer + 1 < s.unitEdges e) :
    s.tick = if isLastUnit e s.bitIdx then
        State.endEvent { s with timer := 0, timing := nextUnit s.timing } e rest
      else { s with timer := 0, timing := nextUnit s.timing, bitIdx := s.bitIdx + 1 } := by
  rcases s.tick_cases with ⟨h0, _⟩ | ⟨e', r', h0, hl, _⟩ | ⟨e', r', h0, _, hu, ht⟩ | ⟨e', r', h0, _, hu, ht⟩
  · simp [hp] at h0
  · rw [hp] at h0
    cases h0
    exact absurd hl h
  · rw [hp] at h0
    cases h0
    rw [ht, hu]
    rfl
  · rw [hp] at h0
    cases h0
    rw [ht, hu]
    rfl

/-- While the unit on the line has edges left, a run only counts them. -/
theorem run_within_unit {s : State} {e : WireEvent} {rest : List WireEvent} (hb : s.phase = .busy)
    (hp : s.pend = e :: rest) (hn : s.inputs.all HostInput.noReset = true) :
    ∀ j, s.timer + j < s.unitEdges e → ∃ l r, l.all HostInput.noReset = true ∧
      run j s = .next { s with timer := s.timer + j, inputs := l, rstnLast := r } := by
  intro j
  induction j with
  | zero => exact fun _ => ⟨s.inputs, s.rstnLast, hn, rfl⟩
  | succ j ih =>
    intro hj
    obtain ⟨l, r, hl, hr⟩ := ih (by omega)
    refine ⟨afterNoCommand l, true, afterNoCommand_noReset hl, ?_⟩
    refine (run_succ_of_busy hr hb hl).trans ?_
    exact congrArg _ (State.tick_of_lt (s := { s with
      timer := s.timer + j, inputs := afterNoCommand l, rstnLast := true }) hp hj)

/-- When the unit's edges are over, the next unit of the same event begins, or the event ends. -/
theorem run_unit {s : State} {e : WireEvent} {rest : List WireEvent} (hb : s.phase = .busy) (hp : s.pend = e :: rest)
    (hn : s.inputs.all HostInput.noReset = true) (ht : s.timer < s.unitEdges e) :
    ∃ l r, l.all HostInput.noReset = true ∧ run (s.unitEdges e - s.timer) s = .next
      (if isLastUnit e s.bitIdx then
        State.endEvent { s with timer := 0, timing := nextUnit s.timing, inputs := l, rstnLast := r } e rest
      else
        { s with
          timer := 0, timing := nextUnit s.timing, bitIdx := s.bitIdx + 1
          inputs := l, rstnLast := r }) := by
  obtain ⟨l, r, hl, hr⟩ := run_within_unit hb hp hn (s.unitEdges e - s.timer - 1) (by omega)
  refine ⟨afterNoCommand l, true, afterNoCommand_noReset hl, ?_⟩
  have hk : s.unitEdges e - s.timer = s.unitEdges e - s.timer - 1 + 1 := by omega
  have hu : ¬ s.timer + (s.unitEdges e - s.timer - 1) + 1 < s.unitEdges e := by omega
  rw [hk]
  refine (run_succ_of_busy hr hb hl).trans ?_
  exact congrArg _ (State.tick_of_not_lt (s := { s with
    timer := s.timer + (s.unitEdges e - s.timer - 1), inputs := afterNoCommand l, rstnLast := true }) hp hu)

end Sys2Proof.Machine
end

