-- ==== Sys2Proof/Tests/Slice0.lean ====
section
/-! SUPPORT. Tests of single steps and of the decoder, with the results that 95_test_vectors.md and the rules of spec/
print; and a witness for the hypotheses of every statement that has any. -/

namespace Sys2Proof.Tests

open Sys2Proof.Machine

/-! ### Helpers -/

/-- What a command leaves of the state, or nothing where it does not complete. -/
def after {R : Type} (f : State → R) (s : State) (w d : Word) : Option R :=
  match execute ⟨w, d⟩ s with
  | .next t => some (f t)
  | .fault _ => none
  | .refused _ => none

/-- GCONF and ERR after a command from the reset state with this GCONF. -/
def gconfAfter (x w d : Word) : Option (Word × BitVec 4) :=
  after (fun t => (t.gconf, t.err)) { State.reset with gconf := x } w d

/-- IHOLD_IRUN and ERR after a command from the reset state with this IHOLD_IRUN. -/
def iholdIrunAfter (x w d : Word) : Option (Word × BitVec 4) :=
  after (fun t => (t.iholdIrun, t.err)) { State.reset with iholdIrun := x } w d

/-- CHOPCONF and ERR after a command from the reset state with this CHOPCONF. -/
def chopconfAfter (x w d : Word) : Option (Word × BitVec 4) :=
  after (fun t => (t.chopconf, t.err)) { State.reset with chopconf := x } w d

/-- The `dgram` port after a command from the reset state. -/
def datagramAfter (w d : Word) : Option (BitVec 64) := after State.dgramPort State.reset w d

/-- The events pending and ERR after a command from the reset state with this gap and settle delay. -/
def eventsAfter (gap settle w d : Word) : Option (List WireEvent × BitVec 4) :=
  after (fun t => (t.pend, t.err)) { State.reset with gapUs := gap, settleUs := settle } w d

/-- CRC_ACC and ERR after a command from the reset state with this CRC_ACC. -/
def crcAfter (acc : Byte) (w d : Word) : Option (Byte × BitVec 4) :=
  after (fun t => (t.crcAcc, t.err)) { State.reset with crcAcc := acc } w d

/-- A command rejected in the reset state, with this code. -/
def rejectedWith (code : BitVec 4) (w d : Word) : Bool :=
  after (fun t => t) State.reset w d == some { State.reset with err := code }

/-- The state after some steps, or nothing where one stops. -/
def afterSteps (n : Nat) (s : State) : Option State :=
  match run n s with
  | .next t => some t
  | .fault _ => none
  | .refused _ => none

/-- A ready block: reset, and one more edge. -/
def ready : State := { State.reset with rstnLast := true }

/-! ### Well-formedness -/

/-- 20_memory.md R61: 0x01 is no chip address. -/
theorem test_wf_wrreg_refuses : Instr.wellFormed (.wrreg 0x01 5) = false := by decide

/-- 20_memory.md R61: 0x22 selects no shadow register. -/
theorem test_wf_send_refuses : Instr.wellFormed (.send 0x22 0) = false := by decide

/-- 20_memory.md R61: the accepted addresses. -/
theorem test_wf_accepts : ([0x00, 0x10, 0x22, 0x6C].all fun a => Instr.wellFormed (.wrreg a 0)) ∧
    ([0x00, 0x10, 0x6C].all fun a => Instr.wellFormed (.send a 0)) := by decide

/-! ### Decoding: the words of R130 to R152, R185, R186, R210 to R218 -/

/-- The setters of GCONF: the printed words, every other one with `T = 1` (R85). -/
theorem test_decode_gconf :
    decode ⟨0x00000001, 7⟩ = .instr (.setfGconfIScaleAnalog false 7) ∧
    decode ⟨0x00008011, 7⟩ = .instr (.setfGconfInternalRsense true 7) ∧
    decode ⟨0x00000021, 7⟩ = .instr (.setfGconfEnSpreadcycle false 7) ∧
    decode ⟨0x00008031, 7⟩ = .instr (.setfGconfShaft true 7) ∧
    decode ⟨0x00000041, 7⟩ = .instr (.setfGconfIndexOtpw false 7) ∧
    decode ⟨0x00008051, 7⟩ = .instr (.setfGconfIndexStep true 7) ∧
    decode ⟨0x00000061, 7⟩ = .instr (.setfGconfPdnDisable false 7) ∧
    decode ⟨0x00008071, 7⟩ = .instr (.setfGconfMstepRegSelect true 7) ∧
    decode ⟨0x00000081, 7⟩ = .instr (.setfGconfMultistepFilt false 7) ∧
    decode ⟨0x00008091, 7⟩ = .instr (.setfGconfTestMode true 7) := by decide

/-- The setters of IHOLD_IRUN: the printed words, every other one with `T = 1` (R85). -/
theorem test_decode_ihold_irun :
    decode ⟨0x00001001, 7⟩ = .instr (.setfIholdIrunIhold false 7) ∧
    decode ⟨0x00009011, 7⟩ = .instr (.setfIholdIrunIrun true 7) ∧
    decode ⟨0x00001021, 7⟩ = .instr (.setfIholdIrunIholddelay false 7) := by decide

/-- The setters of CHOPCONF: the printed words, every other one with `T = 1` (R85). -/
theorem test_decode_chopconf :
    decode ⟨0x00006C01, 7⟩ = .instr (.setfChopconfToff false 7) ∧
    decode ⟨0x0000EC11, 7⟩ = .instr (.setfChopconfHstrt true 7) ∧
    decode ⟨0x00006C21, 7⟩ = .instr (.setfChopconfHend false 7) ∧
    decode ⟨0x0000EC31, 7⟩ = .instr (.setfChopconfTbl true 7) ∧
    decode ⟨0x00006C41, 7⟩ = .instr (.setfChopconfVsense false 7) ∧
    decode ⟨0x0000EC51, 7⟩ = .instr (.setfChopconfMres true 7) ∧
    decode ⟨0x00006C61, 7⟩ = .instr (.setfChopconfIntpol false 7) ∧
    decode ⟨0x0000EC71, 7⟩ = .instr (.setfChopconfDedge true 7) ∧
    decode ⟨0x00006C81, 7⟩ = .instr (.setfChopconfDiss2g false 7) ∧
    decode ⟨0x0000EC91, 7⟩ = .instr (.setfChopconfDiss2vs true 7) := by decide

/-- The other commands. -/
theorem test_decode_others :
    decode ⟨0x00000000, 0x12345678⟩ = .instr (.nop 0x12345678) ∧
    decode ⟨0x00000002, 7⟩ = .instr (.wrreg 0x00 7) ∧
    decode ⟨0x00001002, 7⟩ = .instr (.wrreg 0x10 7) ∧
    decode ⟨0x00002202, 0x12345678⟩ = .instr (.wrreg 0x22 0x12345678) ∧
    decode ⟨0x00006C02, 7⟩ = .instr (.wrreg 0x6C 7) ∧
    decode ⟨0x00000003, 0⟩ = .instr (.send 0x00 0) ∧
    decode ⟨0x00001003, 0⟩ = .instr (.send 0x10 0) ∧
    decode ⟨0x00006C03, 0⟩ = .instr (.send 0x6C 0) ∧
    decode ⟨0x00000004, 0xFFFFFFFF⟩ = .instr (.crcClr 0xFFFFFFFF) ∧
    decode ⟨0x00000005, 0x100⟩ = .instr (.crcByte 0x100) ∧
    decode ⟨0x00000006, 0x55⟩ = .instr (.txb 0x55) ∧
    decode ⟨0x00000007, 5000⟩ = .instr (.setsettle 5000) ∧
    decode ⟨0x00000008, 100⟩ = .instr (.setgap 100) ∧
    decode ⟨0x00000009, 1000000⟩ = .instr (.wait 1000000) := by decide

/-- 95_test_vectors.md 2.5, the rows rejected with code 1, and that nothing else changes (R252). -/
theorem test_reject_opcode :
    rejectedWith 1 0x0000000A 0x00000000 = true ∧
    rejectedWith 1 0x0000000F 0x00000000 = true ∧
    rejectedWith 1 0x00010000 0x00000000 = true ∧
    rejectedWith 1 0x00000010 0x00000000 = true ∧
    rejectedWith 1 0x00008000 0x00000000 = true ∧
    rejectedWith 1 0x00000100 0x00000000 = true ∧
    rejectedWith 1 0x00012201 0x00000001 = true ∧
    rejectedWith 1 0x00002212 0x00000005 = true ∧
    rejectedWith 1 0x0000A202 0x00000005 = true ∧
    rejectedWith 1 0x00000104 0x00000000 = true ∧
    rejectedWith 1 0x80000007 0x00000005 = true := by decide

/-- 95_test_vectors.md 2.5, the rows rejected with code 2, and that nothing else changes (R252). -/
theorem test_reject_addr :
    rejectedWith 2 0x00002201 0x00000001 = true ∧
    rejectedWith 2 0x00000101 0x00000001 = true ∧
    rejectedWith 2 0x00007F01 0x00000001 = true ∧
    rejectedWith 2 0x00000102 0x00000005 = true ∧
    rejectedWith 2 0x00006D02 0x00000005 = true ∧
    rejectedWith 2 0x00002203 0x00000000 = true := by decide

/-- 95_test_vectors.md 2.5, the rows rejected with code 3, and that nothing else changes (R252). -/
theorem test_reject_field :
    rejectedWith 3 0x000000A1 0x00000001 = true ∧
    rejectedWith 3 0x000000F1 0x00000001 = true ∧
    rejectedWith 3 0x00001031 0x00000001 = true ∧
    rejectedWith 3 0x00006CA1 0x00000001 = true := by decide

/-- 95_test_vectors.md 2.5, the rows rejected with code 4, and that nothing else changes (R252). -/
theorem test_reject_range :
    rejectedWith 4 0x00000005 0x000001FF = true ∧
    rejectedWith 4 0x00000006 0x00000100 = true := by decide

/-- The host's table word: bits 31..0 are `cmd_word`, bits 63..32 `cmd_data` (log 17). -/
theorem test_table_word :
    decodeTableWord 32 0x00006C51 = some (.setfChopconfMres false 0) ∧
    decodeTableWord 64 0x1234567800002202 = some (.wrreg 0x22 0x12345678) ∧ decodeTableWord 32 0x0A = none := by decide

/-! ### The field setters: 95_test_vectors.md 2.1 (largest value, one more, 0 over all ones) -/

theorem test_setf_gconf_i_scale_analog :
    gconfAfter 0 0x00000001 1 = some (0x00000001, 0) ∧
    gconfAfter 0 0x00000001 2 = some (0, 4) ∧
    gconfAfter 0xFFFFFFFF 0x00000001 0 = some (0xFFFFFFFE, 0) := by decide

theorem test_setf_gconf_internal_rsense :
    gconfAfter 0 0x00000011 1 = some (0x00000002, 0) ∧
    gconfAfter 0 0x00000011 2 = some (0, 4) ∧
    gconfAfter 0xFFFFFFFF 0x00000011 0 = some (0xFFFFFFFD, 0) := by decide

theorem test_setf_gconf_en_spreadcycle :
    gconfAfter 0 0x00000021 1 = some (0x00000004, 0) ∧
    gconfAfter 0 0x00000021 2 = some (0, 4) ∧
    gconfAfter 0xFFFFFFFF 0x00000021 0 = some (0xFFFFFFFB, 0) := by decide

theorem test_setf_gconf_shaft :
    gconfAfter 0 0x00000031 1 = some (0x00000008, 0) ∧
    gconfAfter 0 0x00000031 2 = some (0, 4) ∧
    gconfAfter 0xFFFFFFFF 0x00000031 0 = some (0xFFFFFFF7, 0) := by decide

theorem test_setf_gconf_index_otpw :
    gconfAfter 0 0x00000041 1 = some (0x00000010, 0) ∧
    gconfAfter 0 0x00000041 2 = some (0, 4) ∧
    gconfAfter 0xFFFFFFFF 0x00000041 0 = some (0xFFFFFFEF, 0) := by decide

theorem test_setf_gconf_index_step :
    gconfAfter 0 0x00000051 1 = some (0x00000020, 0) ∧
    gconfAfter 0 0x00000051 2 = some (0, 4) ∧
    gconfAfter 0xFFFFFFFF 0x00000051 0 = some (0xFFFFFFDF, 0) := by decide

theorem test_setf_gconf_pdn_disable :
    gconfAfter 0 0x00000061 1 = some (0x00000040, 0) ∧
    gconfAfter 0 0x00000061 2 = some (0, 4) ∧
    gconfAfter 0xFFFFFFFF 0x00000061 0 = some (0xFFFFFFBF, 0) := by decide

theorem test_setf_gconf_mstep_reg_select :
    gconfAfter 0 0x00000071 1 = some (0x00000080, 0) ∧
    gconfAfter 0 0x00000071 2 = some (0, 4) ∧
    gconfAfter 0xFFFFFFFF 0x00000071 0 = some (0xFFFFFF7F, 0) := by decide

theorem test_setf_gconf_multistep_filt :
    gconfAfter 0 0x00000081 1 = some (0x00000100, 0) ∧
    gconfAfter 0 0x00000081 2 = some (0, 4) ∧
    gconfAfter 0xFFFFFFFF 0x00000081 0 = some (0xFFFFFEFF, 0) := by decide

theorem test_setf_gconf_test_mode :
    gconfAfter 0 0x00000091 1 = some (0x00000200, 0) ∧
    gconfAfter 0 0x00000091 2 = some (0, 4) ∧
    gconfAfter 0xFFFFFFFF 0x00000091 0 = some (0xFFFFFDFF, 0) := by decide

theorem test_setf_ihold_irun_ihold :
    iholdIrunAfter 0 0x00001001 31 = some (0x0000001F, 0) ∧
    iholdIrunAfter 0 0x00001001 32 = some (0, 4) ∧
    iholdIrunAfter 0xFFFFFFFF 0x00001001 0 = some (0xFFFFFFE0, 0) := by decide

theorem test_setf_ihold_irun_irun :
    iholdIrunAfter 0 0x00001011 31 = some (0x00001F00, 0) ∧
    iholdIrunAfter 0 0x00001011 32 = some (0, 4) ∧
    iholdIrunAfter 0xFFFFFFFF 0x00001011 0 = some (0xFFFFE0FF, 0) := by decide

theorem test_setf_ihold_irun_iholddelay :
    iholdIrunAfter 0 0x00001021 15 = some (0x000F0000, 0) ∧
    iholdIrunAfter 0 0x00001021 16 = some (0, 4) ∧
    iholdIrunAfter 0xFFFFFFFF 0x00001021 0 = some (0xFFF0FFFF, 0) := by decide

theorem test_setf_chopconf_toff :
    chopconfAfter 0 0x00006C01 15 = some (0x0000000F, 0) ∧
    chopconfAfter 0 0x00006C01 16 = some (0, 4) ∧
    chopconfAfter 0xFFFFFFFF 0x00006C01 0 = some (0xFFFFFFF0, 0) := by decide

theorem test_setf_chopconf_hstrt :
    chopconfAfter 0 0x00006C11 7 = some (0x00000070, 0) ∧
    chopconfAfter 0 0x00006C11 8 = some (0, 4) ∧
    chopconfAfter 0xFFFFFFFF 0x00006C11 0 = some (0xFFFFFF8F, 0) := by decide

theorem test_setf_chopconf_hend :
    chopconfAfter 0 0x00006C21 15 = some (0x00000780, 0) ∧
    chopconfAfter 0 0x00006C21 16 = some (0, 4) ∧
    chopconfAfter 0xFFFFFFFF 0x00006C21 0 = some (0xFFFFF87F, 0) := by decide

theorem test_setf_chopconf_tbl :
    chopconfAfter 0 0x00006C31 3 = some (0x00018000, 0) ∧
    chopconfAfter 0 0x00006C31 4 = some (0, 4) ∧
    chopconfAfter 0xFFFFFFFF 0x00006C31 0 = some (0xFFFE7FFF, 0) := by decide

theorem test_setf_chopconf_vsense :
    chopconfAfter 0 0x00006C41 1 = some (0x00020000, 0) ∧
    chopconfAfter 0 0x00006C41 2 = some (0, 4) ∧
    chopconfAfter 0xFFFFFFFF 0x00006C41 0 = some (0xFFFDFFFF, 0) := by decide

theorem test_setf_chopconf_mres :
    chopconfAfter 0 0x00006C51 8 = some (0x08000000, 0) ∧
    chopconfAfter 0 0x00006C51 9 = some (0, 4) ∧
    chopconfAfter 0xFFFFFFFF 0x00006C51 0 = some (0xF0FFFFFF, 0) := by decide

theorem test_setf_chopconf_intpol :
    chopconfAfter 0 0x00006C61 1 = some (0x10000000, 0) ∧
    chopconfAfter 0 0x00006C61 2 = some (0, 4) ∧
    chopconfAfter 0xFFFFFFFF 0x00006C61 0 = some (0xEFFFFFFF, 0) := by decide

theorem test_setf_chopconf_dedge :
    chopconfAfter 0 0x00006C71 1 = some (0x20000000, 0) ∧
    chopconfAfter 0 0x00006C71 2 = some (0, 4) ∧
    chopconfAfter 0xFFFFFFFF 0x00006C71 0 = some (0xDFFFFFFF, 0) := by decide

theorem test_setf_chopconf_diss2g :
    chopconfAfter 0 0x00006C81 1 = some (0x40000000, 0) ∧
    chopconfAfter 0 0x00006C81 2 = some (0, 4) ∧
    chopconfAfter 0xFFFFFFFF 0x00006C81 0 = some (0xBFFFFFFF, 0) := by decide

theorem test_setf_chopconf_diss2vs :
    chopconfAfter 0 0x00006C91 1 = some (0x80000000, 0) ∧
    chopconfAfter 0 0x00006C91 2 = some (0, 4) ∧
    chopconfAfter 0xFFFFFFFF 0x00006C91 0 = some (0x7FFFFFFF, 0) := by decide

set_option maxRecDepth 20000 in
/-- `SETF.GCONF.SHAFT.T 1` from the reset state (95_test_vectors.md P2). -/
theorem test_setf_transmits : datagramAfter 0x00008031 1 = some 0x0500800000000839 ∧
    (eventsAfter 0 3000 0x00008031 1).map (fun p => (p.1.length, p.2)) = some (9, 0) := by decide

/-- MRES alone has a largest value that is not all ones (R121, R148). -/
theorem test_layout_max : (Layout.all.filter fun f => f.max.toNat + 1 != 2 ^ f.width) = [Layout.chopconfMres] := by decide

/-! ### WRREG and SEND: 95_test_vectors.md 2.3 -/

set_option maxRecDepth 20000 in
theorem test_wrreg_datagram :
    datagramAfter 0x00002202 0x12345678 = some 0x0500A212345678B1 ∧
    datagramAfter 0x00002202 0xFFFFEC78 = some 0x0500A2FFFFEC783C ∧
    datagramAfter 0x00001002 0x00000001 = some 0x05009000000001D9 ∧
    datagramAfter 0x00006C02 0x10000053 = some 0x0500EC100000539C ∧
    datagramAfter 0x00000002 0xFFFFFFFF = some 0x050080FFFFFFFF97 := by decide

set_option maxRecDepth 20000 in
/-- `SETGAP 1`, `SETSETTLE 0`, `WRREG GCONF, 0`: seven gaps, none after the CRC byte; no shadow is written. -/
theorem test_wrreg_events :
    eventsAfter 1 0 0x00000002 0 = some
      ([.frame 0x05, .idle 1, .frame 0x00, .idle 1, .frame 0x80, .idle 1, .frame 0x00, .idle 1, .frame 0x00, .idle 1,
        .frame 0x00, .idle 1, .frame 0x00, .idle 1, .frame 0x49], 0) ∧
    gconfAfter 0 0x00000002 0xFFFFFFFF = some (0, 0) := by decide

set_option maxRecDepth 20000 in
theorem test_send_datagram :
    datagramAfter 0x00000003 0 = some 0x0500800000000049 ∧
    datagramAfter 0x00001003 0 = some 0x0500900000000050 ∧
    datagramAfter 0x00006C03 0 = some 0x0500EC0000000054 ∧
    after State.dgramPort { State.reset with chopconf := 0x10000053 } 0x00006C03 0xFFFFFFFF = some 0x0500EC100000539C := by
  decide

set_option maxRecDepth 20000 in
theorem test_send_events :
    eventsAfter 0 3000 0x00001003 0 = some
      ([.frame 0x05, .frame 0x00, .frame 0x90, .frame 0x00, .frame 0x00, .frame 0x00, .frame 0x00, .frame 0x50,
        .idle 3000], 0) := by decide

/-! ### The CRC engine: 95_test_vectors.md 2.2 -/

set_option maxRecDepth 20000 in
/-- `Crc8Step` from a non-zero accumulator. -/
theorem test_crc_step :
    crc8Step 0x69 0x00 = 0x18 ∧ crc8Step 0xFF 0x00 = 0xF3 ∧ crc8Step 0x80 0x00 = 0x89 ∧ crc8Step 0x01 0x00 = 0x07 ∧
    crc8Step 0x69 0x69 = 0xF3 ∧ crc8Step 0xD9 0x01 = 0x88 ∧ crc8Step 0x80 0x01 = 0x00 := by decide

set_option maxRecDepth 20000 in
theorem test_crc_sequences :
    crc8 [0x01] = 0x89 ∧ crc8 [0x80] = 0x07 ∧ crc8 [0xFF] = 0xF3 ∧ crc8 [0x05, 0x00, 0x80] = 0x4F ∧
    crc8 [0x05, 0x00, 0xA2, 0x00, 0x00, 0x00, 0x01] = 0x87 := by decide

theorem test_crc_clr : crcAfter 0x69 0x00000004 0xFFFFFFFF = some (0x00, 0) := by decide

theorem test_crc_byte :
    crcAfter 0x00 0x00000005 0x05 = some (0x69, 0) ∧ crcAfter 0x69 0x00000005 0x00 = some (0x18, 0) ∧
    crcAfter 0x69 0x00000005 0x100 = some (0x69, 4) := by decide

/-! ### TXB, SETSETTLE, SETGAP, WAIT, NOP: 95_test_vectors.md 2.4 -/

theorem test_txb :
    eventsAfter 0 3000 0x00000006 0x55 = some ([.frame 0x55], 0) ∧
    eventsAfter 250 3000 0x00000006 0x00 = some ([.frame 0x00, .idle 250], 0) ∧
    eventsAfter 250 3000 0x00000006 0x100 = some ([], 4) := by decide

theorem test_setsettle :
    after (fun t => (t.settleUs, t.gapUs, t.pend)) State.reset 0x00000007 0xFFFFFFFF = some (0xFFFFFFFF, 0, []) := by decide

theorem test_setgap :
    after (fun t => (t.settleUs, t.gapUs, t.pend)) State.reset 0x00000008 0xFFFFFFFF = some (3000, 0xFFFFFFFF, []) := by decide

theorem test_wait :
    eventsAfter 0 3000 0x00000009 0xFFFFFFFF = some ([.idle 0xFFFFFFFF], 0) ∧
    eventsAfter 0 3000 0x00000009 0 = some ([], 0) := by decide

theorem test_nop : after (fun t => t) ready 0x00000000 0x12345678 = some ready := by decide

/-- `WAIT 100`, `WAIT 200` are one `Idle(300)` to an observer (00_scope.md R12). -/
theorem test_waits_merge : normalForm [.idle 100, .idle 200, .frame 0xFF, .idle 0] = [.idle 300, .frame 0xFF] := by decide

/-! ### Steps -/

/-- ERR keeps the first code (95_test_vectors.md 2.5). -/
theorem test_err_sticky :
    after State.err { State.reset with err := 1 } 0x00001011 0x20 = some 1 := by decide

/-- From reset, `withFetchWord` makes the next step run the command. -/
theorem test_fetch_word :
    afterSteps 1 (State.reset.withFetchWord 32 0x00000007) =
      some { State.reset with rstnLast := true, settleUs := 0 } := by decide

/-- From reset with a command on the port: the first edge accepts nothing (10_state.md R22), the second accepts it. -/
theorem test_second_edge_accepts :
    afterSteps 1 { State.reset with inputs := [.offer ⟨0x00000008, 7⟩] } =
      some { ready with inputs := [.offer ⟨0x00000008, 7⟩] } ∧
    afterSteps 2 { State.reset with inputs := [.offer ⟨0x00000008, 7⟩] } = some { ready with gapUs := 7 } := by decide

/-- Reset and a command at the same edge: the command is not accepted (60_exceptions.md R254). -/
theorem test_reset_wins :
    afterSteps 1 { ready with gapUs := 9, inputs := [.edge ⟨false, true, ⟨0x00000008, 7⟩⟩] } = some State.reset := by decide

/-- The ten levels of `Frame(0x05)` at one edge a bit period (42_transport.md R240). -/
theorem test_tx_levels :
    ((List.range 10).map fun k => State.txLevel { ready with phase := .busy, pend := [.frame 0x05], bitIdx := k }) =
      [false, true, false, true, false, false, false, false, false, true] := by decide

/-- Of a 100 MHz clock with `BAUD_TOL` 0.1 %, 868 edges are a bit period and 850 are not. With 1 % a bit period lasts 860
to 876 edges, whatever more its slack asks for. -/
theorem test_bit_tolerance :
    (Config.TimeBase.mk ⟨100000000, 1⟩ ⟨1, 1000⟩ ⟨0, 1⟩ []).bitWithin 868 ∧
    ¬ (Config.TimeBase.mk ⟨100000000, 1⟩ ⟨1, 1000⟩ ⟨0, 1⟩ []).bitWithin 850 ∧
    unitLength ⟨⟨100000000, 1⟩, ⟨1, 100⟩, ⟨0, 1⟩, []⟩ (.frame 0) 0 = 860 ∧
    unitLength ⟨⟨100000000, 1⟩, ⟨1, 100⟩, ⟨0, 1⟩, []⟩ (.frame 0) 99 = 876 := by decide

/-- Edges of a delay are rounded up and held to `d + DELAY_TOL_US`: 3 ms at 115200 Hz are 345.6 edges, 4 µs at 1.5 MHz are
6 edges and 4 + 2 µs are 9. -/
theorem test_delay_tolerance :
    unitLength State.reset.timing (.idle 3000) 5 = 346 ∧
    unitLength ⟨⟨3000000, 2⟩, ⟨0, 1⟩, ⟨2, 1⟩, []⟩ (.idle 4) 0 = 6 ∧
    unitLength ⟨⟨3000000, 2⟩, ⟨0, 1⟩, ⟨2, 1⟩, []⟩ (.idle 4) 99 = 9 := by decide

/-! ### The assembler: 30_encoding.md R94, R96 -/

theorem test_assemble_forms :
    assembleLine "WRREG VACTUAL, -1" = some [⟨0x00002202, 0xFFFFFFFF⟩] ∧
    assembleLine "SETF.IHOLD_IRUN.IHOLDDELAY.T 8" = some [⟨0x00009021, 8⟩] ∧
    assembleLine "SEND CHOPCONF" = some [⟨0x00006C03, 0⟩] := by decide

theorem test_assemble_pseudo :
    assembleLine "SETCUR 16, 16, 8" =
      some [⟨0x00001001, 0x10⟩, ⟨0x00001011, 0x10⟩, ⟨0x00009021, 8⟩] ∧
    assembleLine "DELAY_MS 1000" = some [⟨0x00000009, 0x000F4240⟩] ∧ assembleLine "WRREG" = none := by decide

/-! ### Witnesses: states and operands that meet the hypotheses of each statement -/

open Sys2Proof.Spec

/-- A ready block whose host holds this command on the port. -/
def offering (w d : Word) : State := { ready with inputs := [.offer ⟨w, d⟩] }

/-- A ready block with this command at exactly one edge. -/
def oneEdge (v : Bool) (w d : Word) : State := { ready with inputs := [.edge ⟨true, v, ⟨w, d⟩⟩] }

/-- A block with one character and a delay on the line, three edges into the start bit, and a command waiting. -/
def playing : State :=
  { ready with
    phase := .busy
    pend := [.frame 0x55, .idle 100]
    timer := 3
    timing := ⟨⟨1000000, 1⟩, ⟨1, 10⟩, ⟨1, 1⟩, [1]⟩
    inputs := [.offer ⟨0x00000008, 7⟩] }

/-- The same block at the start of a unit, with no slack and no command. -/
def playingFresh (e : WireEvent) : State :=
  { ready with phase := .busy, pend := [e, .frame 0x01], timing := ⟨⟨1000000, 1⟩, ⟨1, 10⟩, ⟨1, 1⟩, []⟩ }

theorem inv_reset : State.reset.Inv :=
  ⟨by decide, by unfold State.reservedZero; decide, by unfold State.mresLegal; decide, by unfold State.errLegal; decide,
    by unfold State.pendLegal; decide, by unfold State.placeLegal; exact ⟨rfl, rfl⟩⟩

theorem inv_ready : ready.Inv := ⟨inv_reset.1, inv_reset.2, inv_reset.3, inv_reset.4, inv_reset.5, inv_reset.6⟩

theorem inv_offering (w d : Word) : (offering w d).Inv :=
  ⟨inv_reset.1, inv_reset.2, inv_reset.3, inv_reset.4, inv_reset.5, inv_reset.6⟩

theorem inv_playing : playing.Inv :=
  ⟨inv_reset.1, inv_reset.2, inv_reset.3, inv_reset.4, by unfold State.pendLegal; decide,
    ⟨by decide, by decide⟩⟩

theorem witness_ResetEdgeFromAnyState :
    { playing with inputs := [.edge ⟨false, true, ⟨0x08, 7⟩⟩] }.inputs = .edge ⟨false, true, ⟨0x08, 7⟩⟩ :: [] ∧
    (State.resetEdge { playing with inputs := [.edge ⟨false, true, ⟨0x08, 7⟩⟩] }).pins.rstN = true := by decide

theorem witness_ResetCutsWhatIsOnTheLine :
    { playing with inputs := [.edge ⟨false, false, ⟨0, 0⟩⟩] }.pins.rstN = false ∧ playing.pend ≠ [] := by decide

theorem witness_EveryStepKeepsTheInvariant :
    playing.Inv ∧ step playing = .next { playing with timer := 4 } ∧ State.reset.Inv ∧ step State.reset = .next ready :=
  ⟨inv_playing, rfl, inv_reset, rfl⟩

theorem witness_Accepts :
    Accepts (offering 0x00002202 5) ⟨0x00002202, 5⟩ [] ∧ Accepts (oneEdge true 0x00000A 0) ⟨0x0000000A, 0⟩ [] := by
  constructor
  · exact ⟨rfl, rfl, .inl rfl⟩
  · exact ⟨rfl, rfl, .inr rfl⟩

theorem witness_StepPerformsTheDecodedCommand :
    Accepts (offering 0x00002202 5) ⟨0x00002202, 5⟩ [] ∧ decode ⟨0x00002202, 5⟩ = .instr (.wrreg 0x22 5) :=
  ⟨witness_Accepts.1, by decide⟩

/-- One command for each code. -/
theorem witness_RejectedCommandOnlyRecordsItsCode :
    Accepts (oneEdge true 0x00000A 0) ⟨0x0000000A, 0⟩ [] ∧ rejection ⟨0x0000000A, 0⟩ = some .eOpcode ∧
    rejection ⟨0x00002201, 1⟩ = some .eAddr ∧ rejection ⟨0x000000A1, 1⟩ = some .eField ∧
    rejection ⟨0x00006C51, 9⟩ = some .eRange ∧ rejection ⟨0x00000005, 256⟩ = some .eRange ∧
    rejection ⟨0x00000006, 255⟩ = none :=
  ⟨witness_Accepts.2, by decide⟩

/-- A reset edge, a set ERR, a rejection that writes, and one that there is not. -/
theorem witness_ErrIsStickyAndOnlyRejectionsWriteIt :
    { playing with err := 3, inputs := [.edge ⟨false, true, ⟨0x0A, 0⟩⟩] }.pins.rstN = false ∧
    ({ offering 0x0A 0 with err := 3 }.pins.rstN = true ∧ { offering 0x0A 0 with err := 3 }.err ≠ 0) ∧
    ((offering 0x0A 0).pins.rstN = true ∧ (offering 0x0A 0).err = 0 ∧ (offering 0x0A 0).pins.cmdValid = true ∧
      (offering 0x0A 0).cmdReady = true ∧ rejection (offering 0x0A 0).pins.cmd = some .eOpcode) ∧
    (playing.err = 0 ∧ playing.cmdReady = false ∧ rejection (offering 0x08 0).pins.cmd = none) := by decide

theorem witness_CommandReadyAfterEveryEdge :
    step State.reset = .next ready ∧ State.reset.cmdReady = false ∧ ready.cmdReady = true := ⟨rfl, rfl, rfl⟩

theorem witness_CommandWaitsUntilReady :
    (playing.inputs = .offer ⟨0x08, 7⟩ :: [] ∧ playing.cmdReady = false) ∧
    ({ playing with inputs := [.edge ⟨true, true, ⟨0x08, 7⟩⟩] }.cmdReady = false) ∧
    (oneEdge false 0x08 7).inputs = .edge ⟨true, false, ⟨0x08, 7⟩⟩ :: [] := by decide

set_option maxRecDepth 20000 in
/-- Each register changes at some accepting edge. -/
theorem witness_EachRegisterHasItsWriters :
    gconfAfter 0 0x31 1 = some (8, 0) ∧ iholdIrunAfter 0 0x1011 1 = some (0x100, 0) ∧
    chopconfAfter 0 0x6C01 1 = some (1, 0) ∧ crcAfter 0 0x05 5 = some (0x69, 0) ∧ crcAfter 1 0x04 5 = some (0, 0) ∧
    after State.settleUs State.reset 0x07 5 = some 5 ∧ after State.gapUs State.reset 0x08 5 = some 5 ∧
    datagramAfter 0x8031 1 = some 0x0500800000000839 ∧ (offering 0x31 1).pins.rstN = true := by decide

theorem witness_DatagramPortBytes : 0 < 8 ∧ 7 < 8 ∧
    State.dgramPort { State.reset with dgram := [(0, 0x05), (7, 0xD9)] } = 0x05000000000000D9 := by decide

theorem witness_DecodeOfEncodeIsTheInstruction :
    Instr.wellFormed (.wrreg 0x22 5) = true ∧ Instr.wellFormed (.setfChopconfDiss2vs true 1) = true := by decide

theorem witness_EncodeOfDecodeIsTheCommand : decode ⟨0x0000EC91, 1⟩ = .instr (.setfChopconfDiss2vs true 1) := by decide

theorem witness_UnusedDataWordIsIgnored : field 0x00000000 0 4 = 0 ∧ field 0x00006C03 0 4 = 3 ∧ field 0x00000004 0 4 = 4 := by
  decide

/-- The largest legal and the least illegal value of each width of field. -/
theorem witness_SetterRule :
    ([1, 3, 7, 8, 15, 31].all fun n => decide ((BitVec.ofNat 32 n).toNat ≤ n) && decide (n < (BitVec.ofNat 32 (n + 1)).toNat)) =
      true := by decide

theorem witness_FieldWriteIsReadBackAndIsolated :
    Layout.chopconfMres ∈ Layout.all ∧ (8 : Word) ≤ Layout.chopconfMres.max ∧ 23 < Layout.chopconfMres.lo ∧
    Layout.chopconfMres.lo + Layout.chopconfMres.width ≤ 28 := by decide

theorem witness_FieldsOfARegisterAreDisjoint :
    Layout.chopconfHstrt ∈ Layout.all ∧ Layout.chopconfHend ∈ Layout.all ∧
    Layout.chopconfHstrt.reg = Layout.chopconfHend.reg ∧ Layout.chopconfHstrt ≠ Layout.chopconfHend := by decide

theorem witness_DriverCurrentConstant : State.reset.iholdIrun = 0 := by decide

/-- An address of each clause, and the neighbours of the valid ones. -/
theorem witness_WrregSendsItsDataWord :
    ([0x00, 0x10, 0x22, 0x6C].all fun a : Addr => decide (a = 0x00 ∨ a = 0x10 ∨ a = 0x22 ∨ a = 0x6C)) = true ∧
    ([0x01, 0x21, 0x23, 0x7F].all fun a : Addr => decide (¬ (a = 0x00 ∨ a = 0x10 ∨ a = 0x22 ∨ a = 0x6C))) = true := by decide

theorem witness_SendSendsTheShadow : ¬ ((0x22 : Addr) = 0x00 ∨ (0x22 : Addr) = 0x10 ∨ (0x22 : Addr) = 0x6C) := by decide

theorem witness_byte_operands : (0xFF : Word).toNat < 256 ∧ 256 ≤ (0x100 : Word).toNat ∧ 256 ≤ (0xFFFFFF00 : Word).toNat := by
  decide

theorem witness_WaitHoldsTheLineIdle : (1 : Word) ≠ 0 := by decide

theorem witness_TxPinLevels :
    ((playingFresh (.frame 0x55)).pend = .frame 0x55 :: [.frame 0x01] ∧ (playingFresh (.frame 0x55)).bitIdx = 0) ∧
    { playingFresh (.frame 0x55) with bitIdx := 8 }.bitIdx = 7 + 1 ∧ { playingFresh (.frame 0x55) with bitIdx := 9 }.bitIdx = 9 ∧
    (playingFresh (.idle 3)).pend = .idle 3 :: [.frame 0x01] ∧ ready.pend = [] := by decide

/-- A bit period of 8 edges; the first and the last edge of the character. -/
theorem witness_CharacterIsTenEqualBitPeriods :
    let s := playingFresh (.frame 0x55)
    s.phase = .busy ∧ s.pend = .frame 0x55 :: [.frame 0x01] ∧ s.bitIdx = 0 ∧ s.timer = 0 ∧
      (∀ i, i < 10 → s.timing.slack.getD i 0 = 0) ∧ s.unitEdges (.frame 0x55) = 8 ∧
      s.inputs.all HostInput.noReset = true ∧ 0 < 10 * 8 ∧ 79 < 10 * 8 := by decide

/-- The hypotheses, and that 8 and 9 edges are bit periods within the tolerance, 7 and 10 are not. -/
theorem witness_CharacterHoldsTheBaudTolerance :
    let s := playingFresh (.frame 0x55)
    s.phase = .busy ∧ s.pend = .frame 0x55 :: [.frame 0x01] ∧ s.bitIdx = 0 ∧ s.timer = 0 ∧
      s.inputs.all HostInput.noReset = true ∧ s.timing.bitWithin 8 ∧ s.timing.bitWithin 9 ∧ ¬ s.timing.bitWithin 7 ∧
      ¬ s.timing.bitWithin 10 := by decide

theorem witness_IdleLastsAtLeastItsDelay :
    let s := playingFresh (.idle 3)
    s.phase = .busy ∧ s.pend = .idle 3 :: [.frame 0x01] ∧ (3 : Word) ≠ 0 ∧ s.bitIdx = 0 ∧ s.timer = 0 ∧
      s.inputs.all HostInput.noReset = true ∧
      2 * 1000000 * s.timing.fClk.den < (3 : Word).toNat * s.timing.fClk.num ∧
      s.timing.idleWithin (3 : Word).toNat 3 := by decide

/-- The first and the last bit period of a character and an `Idle`, with the fewest and the most edges of each. -/
theorem witness_EveryDurationWithinTheTolerancesOccurs :
    (let s := playingFresh (.frame 0x55)
     s.phase = .busy ∧ s.timer = 0 ∧ s.inputs.all HostInput.noReset = true ∧ s.pend = .frame 0x55 :: [.frame 0x01] ∧
       s.bitIdx = 0 ∧ { s with bitIdx := 9 }.bitIdx = 9 ∧ s.timing.bitWithin 8 ∧ s.timing.bitWithin 9) ∧
    (let s := playingFresh (.idle 3)
     s.phase = .busy ∧ s.timer = 0 ∧ s.inputs.all HostInput.noReset = true ∧ s.pend = .idle 3 :: [.frame 0x01] ∧
       s.timing.idleWithin (3 : Word).toNat 3 ∧ s.timing.idleWithin (3 : Word).toNat 4 ∧
       ¬ s.timing.idleWithin (3 : Word).toNat 5) := by decide

theorem witness_BusyBlockBecomesIdle :
    playing.Inv ∧ playing.inputs.all HostInput.noReset = true ∧ playing.phase = .busy ∧ playing.drainEdges = 178 :=
  ⟨inv_playing, by decide⟩

theorem witness_OfferedCommandIsPerformedLater :
    playing.Inv ∧ playing.phase = .busy ∧ playing.inputs = .offer ⟨0x08, 7⟩ :: [] := ⟨inv_playing, by decide⟩

theorem witness_CommandsArePerformedInOrderEachWhole :
    (offering 0x06 0x55).Inv ∧ (offering 0x06 0x55).phase = .idle ∧ (offering 0x06 0x55).rstnLast = true ∧
    (offering 0x06 0x55).inputs = [⟨0x06, 0x55⟩].map HostInput.offer := ⟨inv_offering _ _, by decide⟩

/-- A WRREG, a SEND, and a setter with `T = 1`, none rejected. -/
theorem witness_DatagramCommandDuration :
    (rejection ⟨0x00002202, 5⟩ = none ∧ field 0x00002202 0 4 = 2) ∧
    (rejection ⟨0x00006C03, 5⟩ = none ∧ field 0x00006C03 0 4 = 3) ∧
    (rejection ⟨0x0000EC51, 8⟩ = none ∧ field 0x0000EC51 0 4 = 1 ∧ field 0x0000EC51 15 1 = 1) := by decide

theorem witness_NormalFormMergesIdles : (0xFFFFFFFE : Word).toNat + (1 : Word).toNat < 2 ^ 32 := by decide

theorem witness_HostBuiltDatagramLooksTheSame :
    isChipAddr 0x22 = true ∧ State.reset.gapUs = 0 ∧ State.reset.pend = [] := by decide

/-- An edge that accepts nothing, and one that accepts. -/
theorem witness_AcceptedCommandsEmitTheirEvents :
    (playing.Inv ∧ playing.pins.rstN = true ∧ playing.cmdReady = false) ∧
    ((offering 0x06 0x55).Inv ∧ (offering 0x06 0x55).pins.rstN = true ∧ (offering 0x06 0x55).pins.cmdValid = true ∧
      (offering 0x06 0x55).cmdReady = true) := ⟨⟨inv_playing, by decide⟩, ⟨inv_offering _ _, by decide⟩⟩

end Sys2Proof.Tests
end

section
/-! PROOFS. The state family of 10_state.md: what a decoded instruction carries of its command, which commands are
rejected, and `ERR` (R33, R38). -/

namespace Sys2Proof

/-- The data word an instruction carries. -/
def Instr.data : Instr → Word
  | .nop d | .wrreg _ d | .send _ d | .crcClr d | .crcByte d | .txb d | .setsettle d | .setgap d | .wait d
  | .setfGconfIScaleAnalog _ d | .setfGconfInternalRsense _ d | .setfGconfEnSpreadcycle _ d | .setfGconfShaft _ d
  | .setfGconfIndexOtpw _ d | .setfGconfIndexStep _ d | .setfGconfPdnDisable _ d | .setfGconfMstepRegSelect _ d
  | .setfGconfMultistepFilt _ d | .setfGconfTestMode _ d
  | .setfIholdIrunIhold _ d | .setfIholdIrunIrun _ d | .setfIholdIrunIholddelay _ d
  | .setfChopconfToff _ d | .setfChopconfHstrt _ d | .setfChopconfHend _ d | .setfChopconfTbl _ d
  | .setfChopconfVsense _ d | .setfChopconfMres _ d | .setfChopconfIntpol _ d | .setfChopconfDedge _ d
  | .setfChopconfDiss2g _ d | .setfChopconfDiss2vs _ d => d

/-- Where `Decode` answers an instruction, it is a field setter, a WRREG or SEND with an address it checked, or one of
the commands without operand bits. -/
theorem decode_instr_cases {c : Command} {i : Instr} (h : decode c = .instr i) :
    decodeSetf (addrOf c.word) (selOf c.word) (tOf c.word) c.data = some i ∨
    (isChipAddr (addrOf c.word) = true ∧ i = .wrreg (addrOf c.word) c.data) ∨
    (isShadowAddr (addrOf c.word) = true ∧ i = .send (addrOf c.word) c.data) ∨
    decodePlain (opOf c.word) c.data = .instr i := by
  unfold decode at h
  dsimp only at h
  split_ifs at h with _ _ _ _ hshadow hchip hsetf hwrreg hsend
  · left
    split at h
    · next j hj => cases h; exact hj
    · cases h
  · cases h
    exact .inr (.inl ⟨by simpa [hwrreg] using hchip, rfl⟩)
  · cases h
    exact .inr (.inr (.inl ⟨by simpa [hsend] using hshadow, rfl⟩))
  · exact .inr (.inr (.inr h))

theorem decodeSetf_operands {a : Addr} {sel : BitVec 4} {t : Bool} {d : Word} {i : Instr}
    (h : decodeSetf a sel t d = some i) : i.wellFormed = true ∧ i.data = d := by
  unfold decodeSetf at h
  split_ifs at h
  · unfold decodeSetfGconf at h
    split at h <;> cases h <;> exact ⟨rfl, rfl⟩
  · unfold decodeSetfIholdIrun at h
    split at h <;> cases h <;> exact ⟨rfl, rfl⟩
  · unfold decodeSetfChopconf at h
    split at h <;> cases h <;> exact ⟨rfl, rfl⟩

theorem decodePlain_operands {op : BitVec 4} {d : Word} {i : Instr} (h : decodePlain op d = .instr i) :
    i.wellFormed = true ∧ i.data = d := by
  unfold decodePlain at h
  split at h <;> cases h <;> exact ⟨rfl, rfl⟩

/-- A decoded instruction is well formed and carries its command's data word. -/
theorem decode_operands {c : Command} {i : Instr} (h : decode c = .instr i) :
    i.wellFormed = true ∧ i.data = c.data := by
  obtain h | ⟨ha, rfl⟩ | ⟨ha, rfl⟩ | h := decode_instr_cases h
  · exact decodeSetf_operands h
  · exact ⟨ha, rfl⟩
  · exact ⟨ha, rfl⟩
  · exact decodePlain_operands h

end Sys2Proof

namespace Sys2Proof.Machine

open Sys2Proof.Spec

/-- The data word is one the instruction performs: at most the limit where it has one (30_encoding.md R92). -/
def DataInRange (i : Instr) : Prop := ∀ n, dataLimit i = some n → i.data.toNat ≤ n

theorem errAfter_eq_stickyErr (err : BitVec 4) (e : ErrCode) : errAfter err e = stickyErr err e := by
  cases e <;> rfl

theorem code_range (e : ErrCode) : 1 ≤ (code e).toNat ∧ (code e).toNat ≤ 4 := by
  cases e <;> decide

@[simp] theorem State.writeShadow_err (s : State) (r : ShadowReg) (v : Word) : (s.writeShadow r v).err = s.err := by
  cases r <;> rfl

/-- Every address that selects a shadow register selects one of the three. -/
theorem shadowAt_of_isShadowAddr {a : Addr} (h : isShadowAddr a = true) : ∃ r, shadowAt a = some r := by
  obtain rfl | rfl | rfl := Laws.OwnRow.shadowAddr_cases h
  · exact ⟨.gconf, rfl⟩
  · exact ⟨.iholdIrun, rfl⟩
  · exact ⟨.chopconf, rfl⟩

/-- A command is rejected by `Decode` or, decoded, for the range of its data word. -/
theorem rejection_eq_some_iff {c : Command} {e : ErrCode} :
    rejection c = some e ↔
      decode c = .reject e ∨ ∃ i, decode c = .instr i ∧ ¬ DataInRange i ∧ e = .eRange := by
  unfold rejection
  cases hd : decode c with
  | reject e' => simp
  | instr i =>
    obtain ⟨-, hdata⟩ := decode_operands hd
    cases hl : dataLimit i with
    | none => simp [DataInRange, hl]
    | some n => simp [DataInRange, hl, hdata, eq_comm]

/-- A command that is not rejected decodes to an instruction with a data word in range. -/
theorem decode_of_rejection_eq_none {c : Command} (h : rejection c = none) :
    ∃ i, decode c = .instr i ∧ DataInRange i := by
  cases hd : decode c with
  | reject e => simp [rejection_eq_some_iff.2 (.inl hd)] at h
  | instr i =>
    refine ⟨i, rfl, ?_⟩
    by_contra hr
    simp [rejection_eq_some_iff.2 (.inr ⟨i, hd, hr, rfl⟩)] at h

/-- An instruction whose data word is out of range is rejected with `E_RANGE`. -/
theorem exec_of_not_dataInRange {i : Instr} (h : ¬ DataInRange i) (s : State) :
    exec i s = .next (s.reject .eRange) := by
  simp only [DataInRange, not_forall, not_le] at h
  obtain ⟨n, hn, hd⟩ := h
  cases i with
  | nop | wrreg | send | crcClr | setsettle | setgap | wait => cases hn
  | crcByte d | txb d =>
    cases hn
    have hb : ¬ isByteOperand d = true := fun hb => absurd ((isByteOperand_iff d).1 hb) (Nat.not_lt.2 hd)
    exact if_neg hb
  | _ t d =>
    cases hn
    refine setField_rejects ?_ t s
    exact hd

theorem setField_err {f : FieldRow} {t : Bool} {d : Word} {s s' : State} (hd : d.toNat ≤ f.max.toNat)
    (h : setField f t d s = .next s') : s'.err = s.err := by
  cases t with
  | false => rw [setField_writes hd] at h; cases h; simp
  | true => rw [setField_sends hd] at h; cases h; simp

/-- A well-formed instruction whose data word is in range leaves `ERR` alone. -/
theorem exec_err {i : Instr} {s s' : State} (hwf : i.wellFormed = true) (hr : DataInRange i)
    (h : exec i s = .next s') : s'.err = s.err := by
  cases i with
  | nop | crcClr | setsettle | setgap => cases h; rfl
  | wait d => cases h; exact State.play_err s _
  | wrreg a d =>
    rw [show exec (.wrreg a d) s = .next (s.sendDatagram a d) from if_pos hwf] at h
    cases h
    exact State.sendDatagram_err ..
  | send a d =>
    obtain ⟨r, hsel⟩ := shadowAt_of_isShadowAddr hwf
    simp only [exec, execSend, hsel] at h
    cases h
    exact State.sendDatagram_err ..
  | crcByte d | txb d =>
    have hb := (isByteOperand_iff d).2 (Nat.lt_succ_of_le (hr 255 rfl))
    simp only [exec, execCrcByte, execTxb, hb] at h
    cases h
    simp
  | _ t d => exact setField_err (hr _ rfl) h

/-- A rejected command records its code and does nothing else (60_exceptions.md R252). -/
theorem execute_of_rejection {c : Command} {e : ErrCode} (h : rejection c = some e) (s : State) :
    execute c s = .next (s.reject e) := by
  obtain hd | ⟨i, hd, hr, rfl⟩ := rejection_eq_some_iff.1 h
  · simp [execute, hd]
  · simp [execute, hd, exec_of_not_dataInRange hr]

/-- A command that is not rejected leaves `ERR` alone. -/
theorem execute_err_of_no_rejection {c : Command} {s s' : State} (h : rejection c = none)
    (he : execute c s = .next s') : s'.err = s.err := by
  obtain ⟨i, hd, hr⟩ := decode_of_rejection_eq_none h
  obtain ⟨hwf, -⟩ := decode_operands hd
  exact exec_err hwf hr (by simpa [execute, hd] using he)

theorem State.noCommandEdge_err (s : State) : s.noCommandEdge.err = s.err := by
  obtain ⟨-, -, -, -, -, -, herr, -⟩ := State.tick_registers
    { s with inputs := afterNoCommand s.inputs, rstnLast := true }
  exact herr

/-- What an edge does to `ERR`: reset clears it, a rejection at the edge records its code, and nothing else touches it
(10_state.md R33). -/
theorem step_err {s t : State} (h : step s = .next t) :
    (s.pins.rstN = false ∧ t.err = 0) ∨
    (s.pins.rstN = true ∧ s.pins.cmdValid = true ∧ s.cmdReady = true ∧
      ∃ e, rejection s.pins.cmd = some e ∧ t.err = stickyErr s.err e) ∨
    (s.pins.rstN = true ∧ (s.pins.cmdValid = false ∨ s.cmdReady = false ∨ rejection s.pins.cmd = none) ∧
      t.err = s.err) := by
  obtain ⟨hrst, hs⟩ | ⟨hrst, hvalid, hready, hs⟩ | ⟨hrst, hno, hs⟩ := step_cases s <;> rw [hs] at h
  · cases h
    exact .inl ⟨hrst, rfl⟩
  · cases hrej : rejection s.pins.cmd with
    | some e =>
      rw [execute_of_rejection hrej] at h
      cases h
      exact .inr (.inl ⟨hrst, hvalid, hready, e, rfl, errAfter_eq_stickyErr s.err e⟩)
    | none => exact .inr (.inr ⟨hrst, .inr (.inr rfl), execute_err_of_no_rejection (s := s.accepted) hrej h⟩)
  · cases h
    exact .inr (.inr ⟨hrst, hno.imp_right .inl, s.noCommandEdge_err⟩)

/-- Settles O1: `State.reset` is a literal, and an empty `DGRAM` list reads 0x00 at every address. -/
theorem resetLeavesTheStatedValues : Obligations.ResetLeavesTheStatedValues :=
  ⟨rfl, rfl, rfl, rfl, rfl, rfl, rfl, fun _ => rfl, rfl, rfl, rfl⟩

/-- Settles O10, from the three things an edge can do to `ERR` (`step_err`). -/
theorem errIsStickyAndOnlyRejectionsWriteIt : Obligations.ErrIsStickyAndOnlyRejectionsWriteIt := by
  refine ⟨rfl, fun s t h => ?_⟩
  obtain ⟨hrst, ht⟩ | ⟨hrst, hvalid, hready, e, hrej, ht⟩ | ⟨hrst, hno, ht⟩ := step_err h
  · simp [hrst, ht]
  · refine ⟨by simp [hrst], fun _ hset => ht.trans (if_neg hset), fun _ h0 _ _ e' he' => ?_, fun _ _ hno => ?_⟩
    · cases Option.some.inj (hrej.symm.trans he')
      exact ⟨ht.trans (if_pos h0), code_range e⟩
    · simp [hvalid, hready, hrej] at hno
  · refine ⟨by simp [hrst], fun _ _ => ht, fun _ _ hvalid hready e hrej => ?_, fun _ h0 _ => ht.trans h0⟩
    simp [hvalid, hready, hrej] at hno

end Sys2Proof.Machine
end

section
/-! PROOFS. The memory family of 20_memory.md: a stream of commands performed in order, each whole (R71). An edge of the
transmitter changes nothing of what `PEND` will have put on the trace (`State.finished`), and no command reads what the
host does next or the clock record (`State.withHost`); so playing a command's events edge by edge ends where performing
the command whole ends. -/

namespace Sys2Proof.Machine

open Sys2Proof.Spec

/-- The state with all of `PEND` played. -/
def State.finished (s : State) : State :=
  { s with trace := s.trace ++ s.pend, pend := [], phase := .idle, bitIdx := 0, timer := 0 }

/-- The state with another host list and another clock record. -/
def State.withHost (s : State) (l : List HostInput) (tb : Config.TimeBase) : State :=
  { s with inputs := l, timing := tb }

/-- A block that accepts what is presented, its transmitter at the start. -/
structure State.Ready (s : State) : Prop where
  idle : s.phase = .idle
  pendEmpty : s.pend = []
  atFirstBit : s.bitIdx = 0
  atFirstEdge : s.timer = 0
  noReset : s.rstnLast = true

theorem State.withHost_self {s : State} {l : List HostInput} (h : s.inputs = l) : s.withHost l s.timing = s := by
  subst h
  rfl

theorem State.Ready.withHost {s : State} (h : s.Ready) (l : List HostInput) (tb : Config.TimeBase) :
    (s.withHost l tb).Ready := ⟨h.idle, h.pendEmpty, h.atFirstBit, h.atFirstEdge, h.noReset⟩

theorem State.Inv.ready {s : State} (h : s.Inv) (hi : s.phase = .idle) (hr : s.rstnLast = true) : s.Ready := by
  obtain ⟨hbusy, -, -⟩ := h.pendLegal
  have hp : s.pend = [] := by simpa [hi] using hbusy
  have hplace := h.placeLegal
  simp only [State.placeLegal, hp] at hplace
  obtain ⟨hbit, htimer⟩ := hplace
  exact ⟨hi, hp, hbit, htimer, hr⟩

theorem State.Ready.finished_eq {s : State} (h : s.Ready) : s.finished = s := by
  obtain ⟨hi, hp, hb, ht, -⟩ := h
  cases s
  simp_all [State.finished]

theorem State.finished_ready {s : State} (h : s.rstnLast = true) : s.finished.Ready := ⟨rfl, rfl, rfl, rfl, h⟩

/-! ### No command reads the host list or the clock record -/

theorem State.play_withHost (s : State) (es : List WireEvent) (l : List HostInput) (tb : Config.TimeBase) :
    (s.withHost l tb).play es = (s.play es).withHost l tb := by
  unfold State.play
  split <;> rfl

theorem State.sendDatagram_withHost (s : State) (a : Addr) (v : Word) (l : List HostInput) (tb : Config.TimeBase) :
    (s.withHost l tb).sendDatagram a v = (s.sendDatagram a v).withHost l tb :=
  State.play_withHost (s.buildDatagram a v) _ l tb

@[simp] theorem State.readShadow_withHost (s : State) (r : ShadowReg) (l : List HostInput) (tb : Config.TimeBase) :
    (s.withHost l tb).readShadow r = s.readShadow r := by
  cases r <;> rfl

@[simp] theorem State.writeShadow_withHost (s : State) (r : ShadowReg) (v : Word) (l : List HostInput)
    (tb : Config.TimeBase) : (s.withHost l tb).writeShadow r v = (s.writeShadow r v).withHost l tb := by
  cases r <;> rfl

theorem setField_withHost {f : FieldRow} {t : Bool} {d : Word} {s u : State} (h : setField f t d s = .next u)
    (l : List HostInput) (tb : Config.TimeBase) : setField f t d (s.withHost l tb) = .next (u.withHost l tb) := by
  by_cases hd : d.toNat ≤ f.max.toNat
  · cases t with
    | false =>
      rw [setField_writes hd] at h ⊢
      cases h
      simp
    | true =>
      rw [setField_sends hd] at h ⊢
      cases h
      simp [State.sendDatagram_withHost]
  · rw [setField_rejects (Nat.not_le.1 hd)] at h ⊢
    cases h
    rfl

theorem exec_withHost {i : Instr} {s u : State} (h : exec i s = .next u) (l : List HostInput)
    (tb : Config.TimeBase) : exec i (s.withHost l tb) = .next (u.withHost l tb) := by
  cases i with
  | nop | crcClr | setsettle | setgap => cases h; rfl
  | wait d => cases h; exact congrArg _ (State.play_withHost s _ l tb)
  | wrreg a d =>
    simp only [exec, execWrreg] at h ⊢
    split_ifs at h ⊢ <;> cases h
    · exact congrArg _ (State.sendDatagram_withHost s a d l tb)
    · rfl
  | send a d =>
    simp only [exec, execSend] at h ⊢
    split at h <;> cases h
    · simp [State.sendDatagram_withHost]
    · rfl
  | crcByte d =>
    simp only [exec, execCrcByte] at h ⊢
    split_ifs at h ⊢ <;> cases h <;> rfl
  | txb d =>
    simp only [exec, execTxb] at h ⊢
    split_ifs at h ⊢ <;> cases h
    · exact congrArg _ (State.play_withHost s _ l tb)
    · rfl
  | _ t d => exact setField_withHost h l tb

theorem execute_withHost {c : Command} {s u : State} (h : execute c s = .next u) (l : List HostInput)
    (tb : Config.TimeBase) : execute c (s.withHost l tb) = .next (u.withHost l tb) := by
  unfold execute at h ⊢
  split at h
  · cases h; rfl
  · exact exec_withHost h l tb

/-! ### A command performed whole -/

/-- Performing a command whole is performing it and finishing its events. -/
theorem performWhole_of_execute {c : Command} {s t : State} (h : execute c s = .next t) :
    performWhole s c = t.finished := by
  rw [performWhole, h]
  rfl

theorem performWhole_withHost (s : State) (c : Command) (l : List HostInput) (tb : Config.TimeBase) :
    performWhole (s.withHost l tb) c = (performWhole s c).withHost l tb := by
  obtain ⟨t, ht, -⟩ := execute_effect c s
  rw [performWhole_of_execute ht, performWhole_of_execute (execute_withHost ht l tb)]
  rfl

theorem foldl_performWhole_withHost (cs : List Command) (l : List HostInput) (tb : Config.TimeBase) :
    ∀ s : State, cs.foldl performWhole (s.withHost l tb) = (cs.foldl performWhole s).withHost l tb := by
  induction cs with
  | nil => exact fun _ => rfl
  | cons c cs ih => exact fun s => by rw [List.foldl_cons, performWhole_withHost, ih, List.foldl_cons]

theorem State.Ready.after_command {s : State} (h : s.Ready) (c : Command) : (performWhole s c).Ready := by
  obtain ⟨t, ht, he⟩ := execute_effect c s
  obtain ⟨-, -, -, hr⟩ := he.frame
  rw [performWhole_of_execute ht]
  exact State.finished_ready (hr.trans h.noReset)

theorem State.Ready.after_commands (cs : List Command) :
    ∀ {s : State}, s.Ready → (cs.foldl performWhole s).Ready := by
  induction cs with
  | nil => exact fun h => h
  | cons c cs ih => exact fun h => ih (h.after_command c)

/-! ### A busy block under a host that holds its offers -/

/-- Where the host only offers commands, an edge that accepts none moves the transmitter and nothing else. -/
theorem State.noCommandEdge_of_offers {s : State} {cs : List Command} (hr : s.rstnLast = true)
    (hin : s.inputs = cs.map .offer) : s.noCommandEdge = s.tick := by
  have hkeep : afterNoCommand s.inputs = s.inputs := by
    rw [hin]
    cases cs <;> rfl
  rw [State.noCommandEdge, hkeep, ← hr]

theorem step_of_busy_offers {s : State} {cs : List Command} (hb : s.phase = .busy) (hr : s.rstnLast = true)
    (hin : s.inputs = cs.map .offer) : step s = .next s.tick := by
  have hn : s.inputs.all HostInput.noReset = true := by simp [hin, HostInput.noReset]
  rw [step_of_busy hb hn, State.noCommandEdge_of_offers hr hin]

theorem lt_stopBit_of_not_last {e : WireEvent} {k : Nat} (h : isLastUnit e k = false) : k < stopBit := by
  cases e with
  | frame b => simpa [isLastUnit] using h
  | idle d => cases h

theorem endEvent_nil_ready {s : State} {e : WireEvent} (ht : s.timer = 0) (hr : s.rstnLast = true) :
    (s.endEvent e []).Ready := ⟨rfl, rfl, rfl, ht, hr⟩

/-- An event that ends moves from `PEND` to the trace. -/
theorem endEvent_finished {s : State} {e : WireEvent} {rest : List WireEvent} (hp : s.pend = e :: rest) :
    (State.endEvent { s with timer := 0, timing := nextUnit s.timing } e rest).finished =
      s.finished.withHost s.inputs (nextUnit s.timing) := by
  simp [State.finished, State.endEvent, State.withHost, hp]

/-- The events on the line are played to their end while the offers wait. What gets less at every edge: the events left,
then the bit periods left of the first one, then the edges left of its unit. -/
theorem run_to_finished {s : State} {e : WireEvent} {rest : List WireEvent} {cs : List Command}
    (hp : s.pend = e :: rest) (hb : s.phase = .busy) (hr : s.rstnLast = true) (hin : s.inputs = cs.map .offer) :
    ∃ n tb, run n s = .next (s.finished.withHost s.inputs tb) := by
  have hstep := step_of_busy_offers hb hr hin
  by_cases hlt : s.timer + 1 < s.unitEdges e
  · rw [State.tick_of_lt hp hlt] at hstep
    obtain ⟨n, tb, hrun⟩ := run_to_finished (s := { s with timer := s.timer + 1 }) hp hb hr hin
    exact ⟨n + 1, tb, (run_succ_of_step hstep).trans hrun⟩
  · rw [State.tick_of_not_lt hp hlt] at hstep
    cases hlast : isLastUnit e s.bitIdx with
    | false =>
      rw [hlast] at hstep
      obtain ⟨n, tb, hrun⟩ := run_to_finished
        (s := { s with timer := 0, timing := nextUnit s.timing, bitIdx := s.bitIdx + 1 }) hp hb hr hin
      exact ⟨n + 1, tb, (run_succ_of_step hstep).trans hrun⟩
    | true =>
      rw [hlast, if_pos rfl] at hstep
      have hend := endEvent_finished hp
      cases rest with
      | nil =>
        refine ⟨1, nextUnit s.timing, ?_⟩
        have hready := endEvent_nil_ready (s := { s with timer := 0, timing := nextUnit s.timing }) (e := e) rfl hr
        rw [run_succ_of_step hstep, run_zero, ← hend, hready.finished_eq]
      | cons e' rest' =>
        obtain ⟨n, tb, hrun⟩ := run_to_finished
          (s := State.endEvent { s with timer := 0, timing := nextUnit s.timing } e (e' :: rest')) rfl hb hr hin
        refine ⟨n + 1, tb, ?_⟩
        rw [run_succ_of_step hstep, hrun, hend]
        rfl
termination_by (s.pend.length, stopBit - s.bitIdx, s.unitEdges e - s.timer)
decreasing_by
  · exact .right _ (.right _ (Nat.sub_succ_lt_self _ _ (Nat.lt_of_succ_lt hlt)))
  · exact .right _ (.left _ _ (Nat.sub_succ_lt_self _ _ (lt_stopBit_of_not_last hlast)))
  · exact .left _ _ (by simp [hp])

/-- A ready block stays ready through a command that emits nothing, and is busy with what another one emits. -/
theorem Effect.ready_or_busy {s t : State} (h : Effect s t) (hs : s.Ready) :
    t.Ready ∨ t.phase = .busy ∧ ∃ e rest, t.pend = e :: rest := by
  obtain ⟨hi, hp, hb, ht, hr⟩ := hs
  cases h with
  | nothing | rejected | crc | settle | gap => exact .inl ⟨hi, hp, hb, ht, hr⟩
  | field f d => cases f.reg <;> exact .inl ⟨hi, hp, hb, ht, hr⟩
  | fieldSent f d a v =>
    obtain ⟨rest, -, hsent⟩ := State.sendDatagram_busy (s.writeShadow f.reg (f.set (s.readShadow f.reg) d)) a v
    exact .inr (by rw [hsent]; exact ⟨rfl, _, _, rfl⟩)
  | sent a v =>
    obtain ⟨rest, -, hsent⟩ := s.sendDatagram_busy a v
    exact .inr (by rw [hsent]; exact ⟨rfl, _, _, rfl⟩)
  | played es =>
    obtain ⟨-, hplay⟩ | ⟨e, rest, -, hplay⟩ := s.play_cases es
    · exact .inl (by rw [hplay]; exact ⟨hi, hp, hb, ht, hr⟩)
    · exact .inr (by rw [hplay]; exact ⟨rfl, _, _, rfl⟩)

/-! ### The stream -/

/-- A ready block accepts the first command offered at the coming edge. -/
theorem State.Ready.step_offer {s : State} {c : Command} {l : List HostInput} (h : s.Ready)
    (hin : s.inputs = .offer c :: l) : step s = execute c (s.withHost l s.timing) := by
  have hacc : s.accepted = s.withHost l s.timing := by
    rw [State.accepted, hin, ← h.noReset]
    rfl
  simp [step, State.edgeKind, State.pins, State.cmdReady, hin, h.idle, h.noReset, hacc]

/-- The first of the offered commands is performed whole before the next is accepted (20_memory.md R71). -/
theorem State.Ready.run_offer {s : State} {c : Command} {cs : List Command} (h : s.Ready)
    (hin : s.inputs = .offer c :: cs.map .offer) :
    ∃ n tb, run n s = .next ((performWhole s c).withHost (cs.map .offer) tb) := by
  obtain ⟨t, ht, he⟩ := execute_effect c (s.withHost (cs.map .offer) s.timing)
  obtain ⟨-, htin, -, htr⟩ := he.frame
  have hwhole : (performWhole s c).withHost (cs.map .offer) s.timing = t.finished := by
    rw [← performWhole_withHost, performWhole_of_execute ht]
  have hrun : ∃ n tb, run n t = .next (t.finished.withHost t.inputs tb) := by
    obtain hready | ⟨hbusy, e, rest, hp⟩ := he.ready_or_busy (h.withHost _ _)
    · exact ⟨0, t.timing, by rw [hready.finished_eq]; rfl⟩
    · exact run_to_finished hp hbusy (htr.trans h.noReset) htin
  obtain ⟨n, tb, hrun⟩ := hrun
  refine ⟨n + 1, tb, ?_⟩
  rw [run_succ_of_step ((h.step_offer hin).trans ht), hrun, ← hwhole, htin]
  rfl

/-- A ready block performs all the commands offered, one after another. -/
theorem State.Ready.run_offers (cs : List Command) : ∀ {s : State}, s.Ready → s.inputs = cs.map .offer →
    ∃ n tb, run n s = .next ((cs.foldl performWhole s).withHost [] tb) := by
  induction cs with
  | nil => exact fun {s} _ hin => ⟨0, s.timing, congrArg _ (State.withHost_self hin).symm⟩
  | cons c cs ih =>
    intro s h hin
    obtain ⟨n, tb, hrun⟩ := h.run_offer hin
    obtain ⟨m, tb', hrest⟩ := ih ((h.after_command c).withHost (cs.map .offer) tb) rfl
    refine ⟨n + m, tb', ?_⟩
    rw [run_add hrun, hrest, foldl_performWhole_withHost]
    rfl

/-- Settles O42, by induction on the offered commands (`State.Ready.run_offers`). -/
theorem commandsArePerformedInOrderEachWhole : Obligations.CommandsArePerformedInOrderEachWhole := by
  intro cs s hinv hidle hrst hin
  have hready := hinv.ready hidle hrst
  obtain ⟨n, tb, hrun⟩ := hready.run_offers cs hin
  exact ⟨n, _, hrun, rfl, (hready.after_commands cs).idle, (foldl_performWhole_withHost cs [] s.timing s).symm⟩

end Sys2Proof.Machine
end

section
/-! PROOFS. The encoding family of 30_encoding.md: the checks of `Decode` on numbers (R91), the command an accepted
instruction came from, and the data word that some commands ignore (R89). -/

namespace Sys2Proof

open Sys2Proof.Spec

/-! ### The fields of a word as numbers -/

theorem field_op (w : Word) : field w 0 4 = (opOf w).toNat := by
  simp [field, opOf]

theorem field_sel (w : Word) : field w 4 4 = (selOf w).toNat := by
  simp [field, selOf, Nat.shiftRight_eq_div_pow]

theorem field_addr (w : Word) : field w 8 7 = (addrOf w).toNat := by
  simp [field, addrOf, Nat.shiftRight_eq_div_pow]

theorem field_high (w : Word) : field w 16 16 = (highOf w).toNat := by
  simp [field, highOf, Nat.shiftRight_eq_div_pow]

theorem field_t (w : Word) : field w 15 1 = (tOf w).toNat :=
  (Nat.toNat_testBit w.toNat 15).symm

/-! ### The checks of `Decode` (R91) -/

/-- A reserved `OP`, or a 1 in a must-be-zero bit (R91, `E_OPCODE`). -/
def BadOpcode (w : Word) : Prop :=
  field w 16 16 ≠ 0 ∨ 10 ≤ field w 0 4 ∨ (field w 0 4 ≠ 1 ∧ (field w 4 4 ≠ 0 ∨ field w 15 1 ≠ 0)) ∨
    (field w 0 4 ≠ 1 ∧ field w 0 4 ≠ 2 ∧ field w 0 4 ≠ 3 ∧ field w 8 7 ≠ 0)

/-- An address the command does not accept (R91, `E_ADDR`). -/
def BadAddr (w : Word) : Prop :=
  ((field w 0 4 = 1 ∨ field w 0 4 = 3) ∧ field w 8 7 ≠ 0x00 ∧ field w 8 7 ≠ 0x10 ∧ field w 8 7 ≠ 0x6C) ∨
    (field w 0 4 = 2 ∧ field w 8 7 ≠ 0x00 ∧ field w 8 7 ≠ 0x10 ∧ field w 8 7 ≠ 0x22 ∧ field w 8 7 ≠ 0x6C)

/-- A field setter whose pair `(ADDR, SEL)` is not in `Layout` (R91, `E_FIELD`). -/
def BadField (w : Word) : Prop :=
  field w 0 4 = 1 ∧ ((field w 8 7 = 0x00 ∧ 9 < field w 4 4) ∨ (field w 8 7 = 0x10 ∧ 2 < field w 4 4) ∨
    (field w 8 7 = 0x6C ∧ 9 < field w 4 4))

theorem badOpcode_iff (w : Word) :
    BadOpcode w ↔ highOf w ≠ 0 ∨ 0xA ≤ (opOf w).toNat ∨ (opOf w ≠ 0x1 ∧ (selOf w ≠ 0 ∨ tOf w = true)) ∨
      (opOf w ≠ 0x1 ∧ opOf w ≠ 0x2 ∧ opOf w ≠ 0x3 ∧ addrOf w ≠ 0) := by
  simp [BadOpcode, field_op, field_sel, field_addr, field_high, field_t, BitVec.toNat_eq]

theorem isShadowAddr_eq_false_iff (a : Addr) :
    isShadowAddr a = false ↔ a.toNat ≠ 0x00 ∧ a.toNat ≠ 0x10 ∧ a.toNat ≠ 0x6C := by
  simp [isShadowAddr, Config.addrGconf, Config.addrIholdIrun, Config.addrChopconf, BitVec.toNat_eq, and_assoc]

theorem isChipAddr_eq_false_iff (a : Addr) :
    isChipAddr a = false ↔ a.toNat ≠ 0x00 ∧ a.toNat ≠ 0x10 ∧ a.toNat ≠ 0x22 ∧ a.toNat ≠ 0x6C := by
  have hv : (a == Config.addrVactual) = false ↔ a.toNat ≠ 0x22 := by simp [Config.addrVactual, BitVec.toNat_eq]
  rw [isChipAddr, Bool.or_eq_false_iff, isShadowAddr_eq_false_iff, hv]
  tauto

theorem badAddr_iff (w : Word) :
    BadAddr w ↔ ((opOf w = 0x1 ∨ opOf w = 0x3) ∧ isShadowAddr (addrOf w) = false) ∨
      (opOf w = 0x2 ∧ isChipAddr (addrOf w) = false) := by
  simp [BadAddr, field_op, field_addr, isShadowAddr_eq_false_iff, isChipAddr_eq_false_iff, BitVec.toNat_eq]

theorem badField_iff (w : Word) :
    BadField w ↔ opOf w = 0x1 ∧ (((addrOf w).toNat = 0x00 ∧ 9 < (selOf w).toNat) ∨
      ((addrOf w).toNat = 0x10 ∧ 2 < (selOf w).toNat) ∨ ((addrOf w).toNat = 0x6C ∧ 9 < (selOf w).toNat)) := by
  simp [BadField, field_op, field_sel, field_addr, BitVec.toNat_eq]

/-! ### The rows of the opcode table (R82), and what their instructions are encoded as -/

/-- `Layout` has the fields 0 to 9 of GCONF. -/
theorem decodeSetfGconf_eq_none_iff (sel : BitVec 4) (t : Bool) (d : Word) :
    decodeSetfGconf sel t d = none ↔ 9 < sel.toNat := by
  unfold decodeSetfGconf
  split <;> grind

/-- `Layout` has the fields 0 to 2 of IHOLD_IRUN. -/
theorem decodeSetfIholdIrun_eq_none_iff (sel : BitVec 4) (t : Bool) (d : Word) :
    decodeSetfIholdIrun sel t d = none ↔ 2 < sel.toNat := by
  unfold decodeSetfIholdIrun
  split <;> grind

/-- `Layout` has the fields 0 to 9 of CHOPCONF. -/
theorem decodeSetfChopconf_eq_none_iff (sel : BitVec 4) (t : Bool) (d : Word) :
    decodeSetfChopconf sel t d = none ↔ 9 < sel.toNat := by
  unfold decodeSetfChopconf
  split <;> grind

/-- An instruction `decodeSetf` answers is encoded with the fields it was read from. -/
theorem encode_of_decodeSetf {a : Addr} {sel : BitVec 4} {t : Bool} {d : Word} {i : Instr}
    (h : decodeSetf a sel t d = some i) : encode i = ⟨mkWord t a sel 0x1, d⟩ := by
  have hsel : sel = BitVec.ofNat 4 sel.toNat := by simp
  unfold decodeSetf at h
  split_ifs at h with ha ha ha <;> subst ha
  · unfold decodeSetfGconf at h
    split at h <;> cases h <;> (rw [hsel, ‹sel.toNat = _›]; rfl)
  · unfold decodeSetfIholdIrun at h
    split at h <;> cases h <;> (rw [hsel, ‹sel.toNat = _›]; rfl)
  · unfold decodeSetfChopconf at h
    split at h <;> cases h <;> (rw [hsel, ‹sel.toNat = _›]; rfl)

theorem encode_of_decodePlain {op : BitVec 4} {d : Word} {i : Instr} (h : decodePlain op d = .instr i) :
    encode i = ⟨mkWord false 0 0 op, d⟩ := by
  have hop : op = BitVec.ofNat 4 op.toNat := by simp
  unfold decodePlain at h
  split at h <;> cases h <;> (rw [hop, ‹op.toNat = _›]; rfl)

theorem decodePlain_answers {op : BitVec 4} (hlt : op.toNat < 0xA) (h1 : op ≠ 0x1) (h2 : op ≠ 0x2) (h3 : op ≠ 0x3)
    (d : Word) : ∃ i, decodePlain op d = .instr i := by
  unfold decodePlain
  simp only [ne_eq, BitVec.toNat_eq] at h1 h2 h3
  split <;> grind

/-- Of a register's address, `decodeSetf` answers nothing exactly where the pair is not in `Layout`. -/
theorem decodeSetf_eq_none_iff {a : Addr} (ha : isShadowAddr a = true) (sel : BitVec 4) (t : Bool) (d : Word) :
    decodeSetf a sel t d = none ↔
      (a.toNat = 0x00 ∧ 9 < sel.toNat) ∨ (a.toNat = 0x10 ∧ 2 < sel.toNat) ∨ (a.toNat = 0x6C ∧ 9 < sel.toNat) := by
  obtain rfl | rfl | rfl := Laws.OwnRow.shadowAddr_cases ha
  · exact (decodeSetfGconf_eq_none_iff sel t d).trans (by simp)
  · exact (decodeSetfIholdIrun_eq_none_iff sel t d).trans (by simp)
  · exact (decodeSetfChopconf_eq_none_iff sel t d).trans (by simp)

/-! ### `Decode`, check by check -/

/-- What `Decode` answers for a word that passed its must-be-zero and address checks. -/
def decodeRow (c : Command) : DecodeResult :=
  if opOf c.word = 0x1 then
    (decodeSetf (addrOf c.word) (selOf c.word) (tOf c.word) c.data).elim (.reject .eField) .instr
  else if opOf c.word = 0x2 then .instr (.wrreg (addrOf c.word) c.data)
  else if opOf c.word = 0x3 then .instr (.send (addrOf c.word) c.data)
  else decodePlain (opOf c.word) c.data

theorem decode_of_badOpcode {c : Command} (hB : BadOpcode c.word) : decode c = .reject .eOpcode := by
  obtain h | h | h | h := (badOpcode_iff _).1 hB
  all_goals simp only [decode, if_pos h, ite_self]

theorem decode_of_badAddr {c : Command} (hB : ¬ BadOpcode c.word) (hA : BadAddr c.word) :
    decode c = .reject .eAddr := by
  simp only [badOpcode_iff, not_or] at hB
  obtain ⟨h1, h2, h3, h4⟩ := hB
  simp only [decode, if_neg h1, if_neg h2, if_neg h3, if_neg h4]
  obtain h | h := (badAddr_iff _).1 hA
  all_goals simp only [if_pos h, ite_self]

theorem decode_of_passed {c : Command} (hB : ¬ BadOpcode c.word) (hA : ¬ BadAddr c.word) :
    decode c = decodeRow c := by
  simp only [badOpcode_iff, not_or] at hB
  simp only [badAddr_iff, not_or] at hA
  obtain ⟨h1, h2, h3, h4⟩ := hB
  obtain ⟨h5, h6⟩ := hA
  simp only [decode, if_neg h1, if_neg h2, if_neg h3, if_neg h4, if_neg h5, if_neg h6, decodeRow]
  cases decodeSetf (addrOf c.word) (selOf c.word) (tOf c.word) c.data <;> rfl

/-- `E_FIELD` is the one rejection left after the checks of the word; what is not rejected is an instruction, and the
command is its encoding. -/
theorem decodeRow_cases {c : Command} (hB : ¬ BadOpcode c.word) (hA : ¬ BadAddr c.word) :
    (BadField c.word ∧ decodeRow c = .reject .eField) ∨
    (¬ BadField c.word ∧ ∃ i, decodeRow c = .instr i ∧ encode i = c) := by
  simp only [badOpcode_iff, badAddr_iff] at hB hA
  push Not at hB hA
  obtain ⟨hhigh, hlt, hsetf, hplain⟩ := hB
  obtain ⟨hshadow, -⟩ := hA
  have hfields : (⟨mkWord (tOf c.word) (addrOf c.word) (selOf c.word) (opOf c.word), c.data⟩ : Command) = c := by
    rw [mkWord_fields hhigh]
  rw [badField_iff]
  unfold decodeRow
  split_ifs with h1 h2 h3
  · have hnone := decodeSetf_eq_none_iff (by simpa using hshadow (.inl h1)) (selOf c.word) (tOf c.word) c.data
    rw [h1] at hfields
    cases hd : decodeSetf (addrOf c.word) (selOf c.word) (tOf c.word) c.data with
    | none => exact .inl ⟨⟨h1, hnone.1 hd⟩, rfl⟩
    | some i =>
      refine .inr ⟨fun hF => ?_, i, rfl, (encode_of_decodeSetf hd).trans hfields⟩
      simp [hnone.2 hF.2] at hd
  all_goals
    refine .inr ⟨fun hF => h1 hF.1, ?_⟩
    obtain ⟨hsel, ht⟩ := hsetf h1
    rw [hsel, Bool.eq_false_of_not_eq_true ht] at hfields
  · exact ⟨_, rfl, by rwa [h2] at hfields⟩
  · exact ⟨_, rfl, by rwa [h3] at hfields⟩
  · obtain ⟨i, hi⟩ := decodePlain_answers hlt h1 h2 h3 c.data
    rw [hplain h1 h2 h3] at hfields
    exact ⟨i, hi, (encode_of_decodePlain hi).trans hfields⟩

/-! ### The answers of `Decode` -/

/-- The four answers of `Decode`, by the first check that applies; what passes them all is an instruction, and the
command is its encoding. -/
theorem decode_cases (c : Command) :
    (BadOpcode c.word ∧ decode c = .reject .eOpcode) ∨
    (¬ BadOpcode c.word ∧ BadAddr c.word ∧ decode c = .reject .eAddr) ∨
    (¬ BadOpcode c.word ∧ ¬ BadAddr c.word ∧ BadField c.word ∧ decode c = .reject .eField) ∨
    (¬ BadOpcode c.word ∧ ¬ BadAddr c.word ∧ ¬ BadField c.word ∧ ∃ i, decode c = .instr i ∧ encode i = c) := by
  by_cases hB : BadOpcode c.word
  · exact .inl ⟨hB, decode_of_badOpcode hB⟩
  by_cases hA : BadAddr c.word
  · exact .inr (.inl ⟨hB, hA, decode_of_badAddr hB hA⟩)
  rw [decode_of_passed hB hA]
  obtain ⟨hF, hd⟩ | ⟨hF, hi⟩ := decodeRow_cases hB hA
  · exact .inr (.inr (.inl ⟨hB, hA, hF, hd⟩))
  · exact .inr (.inr (.inr ⟨hB, hA, hF, hi⟩))

theorem decode_eq_eOpcode_iff (c : Command) : decode c = .reject .eOpcode ↔ BadOpcode c.word := by
  obtain ⟨hB, hd⟩ | ⟨hB, -, hd⟩ | ⟨hB, -, -, hd⟩ | ⟨hB, -, -, i, hd, -⟩ := decode_cases c <;> simp [hB, hd]

theorem decode_eq_eAddr_iff (c : Command) :
    decode c = .reject .eAddr ↔ ¬ BadOpcode c.word ∧ BadAddr c.word := by
  obtain ⟨hB, hd⟩ | ⟨hB, hA, hd⟩ | ⟨hB, hA, -, hd⟩ | ⟨hB, hA, -, i, hd, -⟩ := decode_cases c <;> simp [*]

theorem decode_eq_eField_iff (c : Command) :
    decode c = .reject .eField ↔ ¬ BadOpcode c.word ∧ ¬ BadAddr c.word ∧ BadField c.word := by
  obtain ⟨hB, hd⟩ | ⟨hB, hA, hd⟩ | ⟨hB, hA, hF, hd⟩ | ⟨hB, hA, hF, i, hd, -⟩ := decode_cases c <;> simp [*]

/-- `Decode` never looks at the data word's range (30_encoding.md R92). -/
theorem decode_ne_eRange (c : Command) : decode c ≠ .reject .eRange := by
  obtain ⟨-, hd⟩ | ⟨-, -, hd⟩ | ⟨-, -, -, hd⟩ | ⟨-, -, -, i, hd, -⟩ := decode_cases c <;> simp [hd]

/-- A command that decodes is the encoding of its instruction. -/
theorem encode_of_decode {c : Command} {i : Instr} (h : decode c = .instr i) : encode i = c := by
  obtain ⟨-, hd⟩ | ⟨-, -, hd⟩ | ⟨-, -, -, hd⟩ | ⟨-, -, -, j, hd, he⟩ := decode_cases c <;> rw [hd] at h <;> cases h
  exact he

/-! ### The row an accepted word fits -/

/-- The word of a well-formed instruction fits its own row of the opcode table and no other. -/
theorem ownRow (i : Instr) : Laws.OwnRow.Statement i := by
  cases i with
  | nop d => exact Laws.OwnRow.nop d
  | wrreg a d => exact Laws.OwnRow.wrreg a d
  | send a d => exact Laws.OwnRow.send a d
  | crcClr d => exact Laws.OwnRow.crcClr d
  | crcByte d => exact Laws.OwnRow.crcByte d
  | txb d => exact Laws.OwnRow.txb d
  | setsettle d => exact Laws.OwnRow.setsettle d
  | setgap d => exact Laws.OwnRow.setgap d
  | wait d => exact Laws.OwnRow.wait d
  | setfGconfIScaleAnalog t d => exact Laws.OwnRow.setfGconfIScaleAnalog t d
  | setfGconfInternalRsense t d => exact Laws.OwnRow.setfGconfInternalRsense t d
  | setfGconfEnSpreadcycle t d => exact Laws.OwnRow.setfGconfEnSpreadcycle t d
  | setfGconfShaft t d => exact Laws.OwnRow.setfGconfShaft t d
  | setfGconfIndexOtpw t d => exact Laws.OwnRow.setfGconfIndexOtpw t d
  | setfGconfIndexStep t d => exact Laws.OwnRow.setfGconfIndexStep t d
  | setfGconfPdnDisable t d => exact Laws.OwnRow.setfGconfPdnDisable t d
  | setfGconfMstepRegSelect t d => exact Laws.OwnRow.setfGconfMstepRegSelect t d
  | setfGconfMultistepFilt t d => exact Laws.OwnRow.setfGconfMultistepFilt t d
  | setfGconfTestMode t d => exact Laws.OwnRow.setfGconfTestMode t d
  | setfIholdIrunIhold t d => exact Laws.OwnRow.setfIholdIrunIhold t d
  | setfIholdIrunIrun t d => exact Laws.OwnRow.setfIholdIrunIrun t d
  | setfIholdIrunIholddelay t d => exact Laws.OwnRow.setfIholdIrunIholddelay t d
  | setfChopconfToff t d => exact Laws.OwnRow.setfChopconfToff t d
  | setfChopconfHstrt t d => exact Laws.OwnRow.setfChopconfHstrt t d
  | setfChopconfHend t d => exact Laws.OwnRow.setfChopconfHend t d
  | setfChopconfTbl t d => exact Laws.OwnRow.setfChopconfTbl t d
  | setfChopconfVsense t d => exact Laws.OwnRow.setfChopconfVsense t d
  | setfChopconfMres t d => exact Laws.OwnRow.setfChopconfMres t d
  | setfChopconfIntpol t d => exact Laws.OwnRow.setfChopconfIntpol t d
  | setfChopconfDedge t d => exact Laws.OwnRow.setfChopconfDedge t d
  | setfChopconfDiss2g t d => exact Laws.OwnRow.setfChopconfDiss2g t d
  | setfChopconfDiss2vs t d => exact Laws.OwnRow.setfChopconfDiss2vs t d

/-- A word that decodes fits the row of its instruction and no other. -/
theorem ownRow_of_decode {w d : Word} {i : Instr} (h : decode ⟨w, d⟩ = .instr i) :
    ((opcodeTable.filter fun r => r.fits w).map fun r => r.mnemonic) = [i.mnemonic] := by
  obtain ⟨hwf, -⟩ := decode_operands h
  have hrow := ownRow i hwf
  rwa [encode_of_decode h] at hrow

end Sys2Proof

namespace Sys2Proof.Machine

open Sys2Proof.Spec

/-- Settles O15, from the four answers of `Decode` (`decode_cases`) and the row of an accepted word
(`ownRow_of_decode`). -/
theorem decodeClassifiesEveryWord : Obligations.DecodeClassifiesEveryWord := by
  refine ⟨fun w d => ⟨decode_eq_eOpcode_iff ⟨w, d⟩, decode_eq_eAddr_iff ⟨w, d⟩, decode_eq_eField_iff ⟨w, d⟩,
    decode_ne_eRange ⟨w, d⟩, fun i => ownRow_of_decode⟩, by decide, fun d => ?_⟩
  have hbad : ¬ BadOpcode 0x00000102 ∧ BadAddr 0x00000102 := by
    unfold BadOpcode BadAddr
    decide
  exact (decode_eq_eAddr_iff ⟨0x00000102, d⟩).2 hbad

/-- Settles O19: both commands pass or fail the same checks of their one word, and the arms of NOP, SEND and CRC.CLR
drop the data word. -/
theorem unusedDataWordIsIgnored : Obligations.UnusedDataWordIsIgnored := by
  intro w d d' s hop
  unfold execute
  by_cases hB : BadOpcode w
  · rw [decode_of_badOpcode (c := ⟨w, d⟩) hB, decode_of_badOpcode (c := ⟨w, d'⟩) hB]
  by_cases hA : BadAddr w
  · rw [decode_of_badAddr (c := ⟨w, d⟩) hB hA, decode_of_badAddr (c := ⟨w, d'⟩) hB hA]
  rw [decode_of_passed (c := ⟨w, d⟩) hB hA, decode_of_passed (c := ⟨w, d'⟩) hB hA]
  simp only [field_op] at hop
  obtain h | h | h := hop
  all_goals
    simp only [decodeRow, decodePlain, h, BitVec.toNat_eq]
    rfl

end Sys2Proof.Machine
end

section
/-! PROOFS. The CRC engine family of 41_crc_engine.md (R180): `crcBit` and `crcBits` on numbers, as
`crcBitNat` says them. -/

namespace Sys2Proof.Machine

open Sys2Proof.Spec

/-- Bit `j` of a byte, as a number. -/
theorem toNat_getLsbD (b : Byte) (j : Nat) : (b.getLsbD j).toNat = b.toNat / 2 ^ j % 2 := by
  rw [BitVec.getLsbD, Nat.toNat_testBit]

/-- The top bit of a byte, as a number: division by 128 leaves no other bit. -/
theorem toNat_getLsbD_seven (c : Byte) : (c.getLsbD 7).toNat = c.toNat / 128 := by
  rw [toNat_getLsbD]
  have := c.isLt
  omega

/-- The feedback condition of `crcBit` is that of `crcBitNat`. -/
theorem getLsbD_seven_bne_iff (c : Byte) (x : Bool) : (c.getLsbD 7 != x) = true ↔ c.toNat / 128 ≠ x.toNat := by
  rw [bne_iff_ne, ← toNat_getLsbD_seven]
  cases x <;> simp

/-- Shifting a byte left by one doubles it mod 256. -/
theorem toNat_shiftLeft_one (c : Byte) : (c <<< 1).toNat = 2 * c.toNat % 256 := by
  rw [BitVec.toNat_shiftLeft, Nat.shiftLeft_eq]
  omega

/-- One bit of the CRC is `crcBitNat` of the accumulator's number. -/
theorem toNat_crcBit (c : Byte) (x : Bool) : (crcBit c x).toNat = crcBitNat c.toNat x.toNat := by
  unfold crcBit crcBitNat
  by_cases h : c.toNat / 128 ≠ x.toNat
  · rw [if_pos ((getLsbD_seven_bne_iff c x).2 h), if_pos h, BitVec.toNat_xor, toNat_shiftLeft_one]
    rfl
  · rw [if_neg (mt (getLsbD_seven_bne_iff c x).1 h), if_neg h, toNat_shiftLeft_one]

/-- `n` data bits from bit `j` on are a fold of `crcBitNat` over the bit numbers `j`, ..., `j + n - 1`. -/
theorem toNat_crcBits (c b : Byte) (j n : Nat) : (crcBits c b j n).toNat =
    (List.range' j n).foldl (fun acc k => crcBitNat acc (b.toNat / 2 ^ k % 2)) c.toNat := by
  induction n generalizing c j with
  | zero => rfl
  | succ n ih => rw [crcBits, ih, toNat_crcBit, toNat_getLsbD, List.range'_succ, List.foldl_cons]

/-- Settles O32: `crc8Step` is the fold of `toNat_crcBits` over the bit numbers 0 to 7. -/
theorem crcStepIsBitSerial : Obligations.CrcStepIsBitSerial := by
  intro c b
  rw [crc8Step, toNat_crcBits, List.range_eq_range']

end Sys2Proof.Machine
end

section
/-! PROOFS. The exceptions family of 60_exceptions.md: a rejected command at its accepting edge (R252). -/

namespace Sys2Proof.Machine

open Sys2Proof.Spec

/-- A ready block with a command on its port, held or driven for one edge, executes it at that edge (10_state.md R21). -/
theorem step_of_accepts {s : State} {c : Command} {l : List HostInput} (h : Accepts s c l) :
    step s = execute c { s with inputs := l } := by
  obtain ⟨hlast, hidle, hport⟩ := h
  have hready : s.cmdReady = true := by simp [State.cmdReady, hlast, hidle]
  have hpins : s.pins = ⟨true, true, c⟩ := by obtain hin | hin := hport <;> simp only [State.pins, hin]
  have hrest : s.accepted = { s with inputs := l } := by
    obtain hin | hin := hport <;> simp only [State.accepted, hin, List.tail_cons, ← hlast]
  simp [step, State.edgeKind, hpins, hready, hrest]

/-- Settles O9: the accepting edge executes the command (`step_of_accepts`), and executing a rejected command is
`State.reject` alone (`execute_of_rejection`). -/
theorem rejectedCommandOnlyRecordsItsCode : Obligations.RejectedCommandOnlyRecordsItsCode := by
  intro s c l e hacc hrej
  have hstep : step s = .next { s with inputs := l, err := stickyErr s.err e } := by
    rw [step_of_accepts hacc, execute_of_rejection hrej, State.reject, errAfter_eq_stickyErr]
  obtain ⟨hlast, hidle, -⟩ := hacc
  refine ⟨hstep, fun t ht => ?_⟩
  cases hstep.symm.trans ht
  exact ⟨by simp [State.cmdReady, hlast, hidle], rfl⟩

end Sys2Proof.Machine
end

section
/-! PROOFS. The reset and hazards family of 70_reset_and_hazards.md: the command handshake (R297). An edge that accepts
nothing moves the transmitter alone: no register changes, and an event that ends only moves from `PEND` to the trace. -/

namespace Sys2Proof.Machine

open Sys2Proof.Spec

/-- The transmitter adds no event to the line: what it takes from `PEND` it puts on the trace. -/
theorem State.tick_trace_append_pend (s : State) : s.tick.trace ++ s.tick.pend = s.trace ++ s.pend := by
  obtain ⟨-, h⟩ | ⟨_, _, -, -, h⟩ | ⟨_, _, -, -, -, h⟩ | ⟨e, rest, hp, -, -, h⟩ := s.tick_cases <;> rw [h]
  simp [hp]

theorem State.noCommandEdge_inputs (s : State) : s.noCommandEdge.inputs = afterNoCommand s.inputs := by
  obtain ⟨-, -, -, -, -, -, -, -, -, hin⟩ := State.tick_registers
    { s with inputs := afterNoCommand s.inputs, rstnLast := true }
  exact hin

theorem State.noCommandEdge_sameRegisters (s : State) : SameRegisters s s.noCommandEdge := by
  obtain ⟨hgconf, hihold, hchop, hsettle, hgap, hcrc, herr, hdgram, -, -⟩ := State.tick_registers
    { s with inputs := afterNoCommand s.inputs, rstnLast := true }
  exact ⟨hgconf, hihold, hchop, hsettle, hgap, hcrc, herr, hdgram⟩

theorem State.noCommandEdge_trace_append_pend (s : State) :
    s.noCommandEdge.trace ++ s.noCommandEdge.pend = s.trace ++ s.pend :=
  State.tick_trace_append_pend { s with inputs := afterNoCommand s.inputs, rstnLast := true }

/-- Without reset, an edge at which no command is presented or the block is not ready accepts nothing (10_state.md R21). -/
theorem step_of_not_accepting {s : State} (hrst : s.pins.rstN = true)
    (hno : s.pins.cmdValid = false ∨ s.cmdReady = false) : step s = .next s.noCommandEdge := by
  obtain ⟨hreset, -⟩ | ⟨-, hvalid, hready, -⟩ | ⟨-, -, hs⟩ := step_cases s
  · simp [hrst] at hreset
  · simp [hvalid, hready] at hno
  · exact hs

/-- An edge that accepts nothing moves the host's list on, changes no register and adds no event to the line. -/
theorem step_waits {s : State} (hrst : s.pins.rstN = true) (hno : s.pins.cmdValid = false ∨ s.cmdReady = false) :
    ∃ t, step s = .next t ∧ t.inputs = afterNoCommand s.inputs ∧ SameRegisters s t ∧
      t.trace ++ t.pend = s.trace ++ s.pend :=
  ⟨s.noCommandEdge, step_of_not_accepting hrst hno, s.noCommandEdge_inputs, s.noCommandEdge_sameRegisters,
    s.noCommandEdge_trace_append_pend⟩

/-- Settles O12: an edge that accepts nothing waits (`step_waits`), its `afterNoCommand` keeps an offer and drops the pins
of one edge; the accepting edge executes the command on the port (`step_of_accepts`). -/
theorem commandWaitsUntilReady : Obligations.CommandWaitsUntilReady := by
  refine ⟨fun s c l hin hready => ?offered, fun s c l hin hready => ?presented, fun s c l hin => ?withdrawn,
    fun s c l => step_of_accepts⟩
  case offered | presented =>
    have hpins : s.pins = ⟨true, true, c⟩ := by simp [State.pins, hin]
    simpa [hin, afterNoCommand] using step_waits (s := s) (by simp [hpins]) (.inr hready)
  case withdrawn =>
    have hpins : s.pins = ⟨true, false, c⟩ := by simp [State.pins, hin]
    simpa [hin, afterNoCommand] using step_waits (s := s) (by simp [hpins]) (.inl (by simp [hpins]))

end Sys2Proof.Machine
end

section
/-! PROOFS. The fields of the shadow registers (40_register_model.md R121 to R125): a field reads back what was written to
it, and no two fields of a register share a bit. -/

namespace Sys2Proof.Machine

theorem FieldRow.getLsbD_get {f : FieldRow} (hf : f ∈ Layout.all) (x : Word) (k : Nat) :
    (f.get x).getLsbD k = (decide (k < f.width) && x.getLsbD (f.lo + k)) := by
  obtain ⟨hw, -⟩ := Layout.fits f hf
  rw [FieldRow.get, BitVec.getLsbD_and, BitVec.getLsbD_ushiftRight, getLsbD_mask _ _ (by omega), Bool.and_comm]

/-- A legal value fits its field. -/
theorem FieldRow.getLsbD_of_le_max {f : FieldRow} (hf : f ∈ Layout.all) {d : Word} (hd : d.toNat ≤ f.max.toNat) {k : Nat}
    (hk : f.width ≤ k) : d.getLsbD k = false := by
  obtain ⟨-, hm⟩ := Layout.fits f hf
  exact Nat.testBit_lt_two_pow (Nat.lt_of_le_of_lt hd (Nat.lt_of_lt_of_le hm (Nat.pow_le_pow_right (by decide) hk)))

/-- A field reads back as what was written to it (R125). -/
theorem FieldRow.get_set {f : FieldRow} (hf : f ∈ Layout.all) {d : Word} (hd : d.toNat ≤ f.max.toNat) (x : Word) :
    f.get (f.set x d) = d := by
  apply BitVec.eq_of_getLsbD_eq
  intro k _
  rw [FieldRow.getLsbD_get hf, FieldRow.getLsbD_set hf hd]
  by_cases hk : k < f.width
  · simp [hk]
  · simp [hk, FieldRow.getLsbD_of_le_max hf hd (Nat.le_of_not_lt hk)]

/-- Two fields of a register lie one above the other. -/
theorem Layout.apart : ∀ f ∈ Layout.all, ∀ g ∈ Layout.all, f.reg = g.reg → f ≠ g →
    f.lo + f.width ≤ g.lo ∨ g.lo + g.width ≤ f.lo := by decide

/-- A field write leaves the other fields of its register as they were (R124). -/
theorem FieldRow.get_set_other {f g : FieldRow} (hf : f ∈ Layout.all) (hg : g ∈ Layout.all) (hreg : f.reg = g.reg)
    (hne : f ≠ g) {d : Word} (hd : d.toNat ≤ f.max.toNat) (x : Word) : g.get (f.set x d) = g.get x := by
  have happart := Layout.apart f hf g hg hreg hne
  apply BitVec.eq_of_getLsbD_eq
  intro k _
  rw [FieldRow.getLsbD_get hg, FieldRow.getLsbD_get hg, FieldRow.getLsbD_set hf hd]
  by_cases hk : k < g.width
  · rw [if_neg (by omega)]
  · simp [hk]

/-- Settles O23: a write sets the bits of its field (`FieldRow.getLsbD_set`), and the field reads them
(`FieldRow.get_set`). -/
theorem fieldWriteIsReadBackAndIsolated : Obligations.FieldWriteIsReadBackAndIsolated := by
  refine ⟨rfl, fun f hf x d hd => ⟨FieldRow.get_set hf hd x, fun k hk => ?_⟩⟩
  rw [FieldRow.getLsbD_set hf hd, if_neg (by omega)]

/-- Two fields of a register share no bit. -/
theorem FieldRow.bits_and_bits {f g : FieldRow} (hf : f ∈ Layout.all) (hg : g ∈ Layout.all) (hreg : f.reg = g.reg)
    (hne : f ≠ g) : f.bits &&& g.bits = 0 := by
  have happart := Layout.apart f hf g hg hreg hne
  apply BitVec.eq_of_getLsbD_eq
  intro k _
  rw [BitVec.getLsbD_and, FieldRow.getLsbD_bits (Layout.fits f hf).1, FieldRow.getLsbD_bits (Layout.fits g hg).1,
    ← Bool.decide_and]
  simp
  omega

/-- Settles O24: the fields of a register are apart (`FieldRow.bits_and_bits`); the three unions are computed. -/
theorem fieldsOfARegisterAreDisjoint : Obligations.FieldsOfARegisterAreDisjoint :=
  ⟨fun _ hf _ hg => FieldRow.bits_and_bits hf hg, by decide, by decide, by decide⟩

end Sys2Proof.Machine
end

section
/-! PROOFS. The invariant (`State.Inv`): it holds of the reset state, every effect of a command and every edge of the
transmitter keeps it, and so every step of a run does (10_state.md R28, R35, 60_exceptions.md R250, R263). -/

namespace Sys2Proof.Machine

open Sys2Proof.Spec

/-! ### What the parts of the invariant depend on -/

/-- At the start of an event the transmitter's place is inside it. -/
theorem State.placeLegal_of_start {s : State} (hb : s.bitIdx = 0) (ht : s.timer = 0) : s.placeLegal := by
  unfold State.placeLegal
  split
  · exact ⟨hb, ht⟩
  · exact ⟨by simp [hb], by rw [ht]; exact s.unitEdges_pos _⟩
  · exact ⟨hb, by rw [ht]; exact s.unitEdges_pos _⟩

theorem errLegal_of_errAfter {err : BitVec 4} (h : err.toNat ≤ 4) (c : ErrCode) : (errAfter err c).toNat ≤ 4 := by
  rw [errAfter_eq_stickyErr, stickyErr]
  split_ifs
  · exact (code_range c).2
  · exact h

/-- A legal field write keeps the code of MRES legal: it is MRES that is written, or another field. -/
theorem FieldRow.set_mres {f : FieldRow} (hf : f ∈ Layout.all) (hreg : f.reg = .chopconf) {d x : Word}
    (hd : d.toNat ≤ f.max.toNat) (hx : (Layout.chopconfMres.get x).toNat ≤ 8) :
    (Layout.chopconfMres.get (f.set x d)).toNat ≤ 8 := by
  by_cases hm : f = Layout.chopconfMres
  · subst hm
    rwa [FieldRow.get_set hf hd]
  · rwa [FieldRow.get_set_other hf (by decide) hreg hm hd]

/-! ### What keeps the invariant -/

theorem State.Inv.withHost {s : State} (h : s.Inv) (l : List HostInput) (r : Bool) :
    State.Inv { s with inputs := l, rstnLast := r } :=
  { h with }

theorem State.Inv.reject {s : State} (h : s.Inv) (c : ErrCode) : (s.reject c).Inv :=
  { h with errLegal := errLegal_of_errAfter h.errLegal c }

theorem State.Inv.writeField {s : State} (h : s.Inv) {f : FieldRow} (hf : f ∈ Layout.all) {d : Word}
    (hd : ¬ f.max < d) : (s.writeShadow f.reg (f.set (s.readShadow f.reg) d)).Inv := by
  have hd' : d.toNat ≤ f.max.toNat := Nat.le_of_not_lt hd
  obtain ⟨hg, hi, hc⟩ := h.reservedZero
  have hset := fun x => FieldRow.set_reserved hf hd' (x := x)
  have hmres := fun hreg => FieldRow.set_mres hf hreg hd' h.mresLegal
  cases hr : f.reg with
  | gconf =>
    rw [hr] at hset
    exact { h with reservedZero := ⟨hset _ hg, hi, hc⟩ }
  | iholdIrun =>
    rw [hr] at hset
    exact { h with reservedZero := ⟨hg, hset _ hi, hc⟩ }
  | chopconf =>
    rw [hr] at hset
    exact { h with reservedZero := ⟨hg, hi, hset _ hc⟩, mresLegal := hmres hr }

theorem State.Inv.play {s : State} (h : s.Inv) (es : List WireEvent) : (s.play es).Inv := by
  obtain ⟨-, hplay⟩ | ⟨e, rest, hes, hplay⟩ := s.play_cases es
  · rwa [hplay]
  · obtain ⟨-, -, htrace⟩ := h.pendLegal
    have hno := idle_zero_not_mem_emitted es
    rw [hes] at hno
    rw [hplay]
    exact { h with pendLegal := ⟨by simp, hno, htrace⟩, placeLegal := State.placeLegal_of_start rfl rfl }

theorem State.Inv.sendDatagram {s : State} (h : s.Inv) (a : Addr) (v : Word) : (s.sendDatagram a v).Inv := by
  have hbuilt : (s.buildDatagram a v).Inv :=
    { h with dgramWf := Memory.writeFrom_wf _ h.dgramWf (by simp [Config.dgramLen]) }
  exact hbuilt.play _

/-- Whatever a performed instruction can do keeps the invariant. -/
theorem Effect.inv {s t : State} (h : Effect s t) (hs : s.Inv) : t.Inv := by
  cases h with
  | nothing => exact hs
  | rejected c => exact hs.reject c
  | field f d hf hd => exact hs.writeField hf hd
  | fieldSent f d a v hf hd => exact (hs.writeField hf hd).sendDatagram a v
  | sent a v => exact hs.sendDatagram a v
  | played es => exact hs.play es
  | crc | settle | gap => exact { hs with }

/-- The transmitter moves inside its event, on to the next unit, or to the start of the next event. -/
theorem State.Inv.tick {s : State} (h : s.Inv) : s.tick.Inv := by
  obtain ⟨hbusy, hpend, htrace⟩ := h.pendLegal
  have hplace := h.placeLegal
  obtain ⟨hp, ht⟩ | ⟨e, rest, hp, hlt, ht⟩ | ⟨e, rest, hp, -, hlast, ht⟩ | ⟨e, rest, hp, -, -, ht⟩ := s.tick_cases <;>
    rw [ht] <;> refine ⟨h.dgramWf, h.reservedZero, h.mresLegal, h.errLegal, ?_, ?_⟩
  · exact ⟨by simp [hp], hpend, htrace⟩
  · exact hplace
  · exact ⟨hbusy, hpend, htrace⟩
  · unfold State.placeLegal at hplace ⊢
    cases e <;> simp only [hp] at hplace ⊢
    · exact ⟨hplace.1, hlt⟩
    · exact ⟨hplace.1, hlt⟩
  · exact ⟨hbusy, hpend, htrace⟩
  · have hk := lt_stopBit_of_not_last hlast
    unfold State.placeLegal
    cases e with
    | frame b =>
      simp only [hp]
      exact ⟨hk, State.unitEdges_pos _ _⟩
    | idle d => cases hlast
  · rw [hp, List.mem_cons, not_or] at hpend
    obtain ⟨hne, hrest⟩ := hpend
    refine ⟨by cases rest <;> simp [hbusy, hp], hrest, ?_⟩
    rw [List.mem_append, List.mem_singleton]
    exact not_or.2 ⟨htrace, hne⟩
  · exact State.placeLegal_of_start rfl rfl

theorem State.Inv.noCommandEdge {s : State} (h : s.Inv) : s.noCommandEdge.Inv :=
  (h.withHost (afterNoCommand s.inputs) true).tick

/-- Settles O4: every part of the invariant is computed on the literal state. -/
theorem resetStateMeetsTheInvariant : Obligations.ResetStateMeetsTheInvariant where
  dgramWf := Memory.reset_wf
  reservedZero := ⟨rfl, rfl, rfl⟩
  mresLegal := Nat.zero_le 8
  errLegal := Nat.zero_le 4
  pendLegal := ⟨by simp [State.reset], by simp [State.reset], by simp [State.reset]⟩
  placeLegal := ⟨rfl, rfl⟩

/-- After a reset edge the block is as at reset but for the trace, which stays without `Idle(0)`. -/
theorem State.Inv.resetEdge {s : State} (h : s.Inv) : s.resetEdge.Inv := by
  obtain ⟨-, -, htrace⟩ := h.pendLegal
  obtain ⟨hbusy, hpend, -⟩ := resetStateMeetsTheInvariant.pendLegal
  exact { resetStateMeetsTheInvariant with pendLegal := ⟨hbusy, hpend, htrace⟩ }

/-- Settles O5: a reset edge, the effect of an accepted command (`Effect.inv`) and an edge of the transmitter
(`State.Inv.tick`) each keep the invariant. -/
theorem everyStepKeepsTheInvariant : Obligations.EveryStepKeepsTheInvariant := by
  intro s t hs ht
  obtain ⟨-, h⟩ | ⟨-, -, -, h⟩ | ⟨-, -, h⟩ := step_cases s <;> rw [h] at ht
  · cases ht
    exact hs.resetEdge
  · obtain ⟨t', ht', heff⟩ := execute_effect s.pins.cmd s.accepted
    rw [ht'] at ht
    cases ht
    exact heff.inv (hs.withHost _ _)
  · cases ht
    exact hs.noCommandEdge

/-! ### Runs -/

/-- Settles O7: each of the three kinds of edge answers a next state (`step_cases`, `execute_effect`). -/
theorem everyStepGoesOn : Obligations.EveryStepGoesOn := by
  intro s
  obtain ⟨-, h⟩ | ⟨-, -, -, h⟩ | ⟨-, -, h⟩ := step_cases s
  · exact ⟨_, h⟩
  · obtain ⟨t, ht, -⟩ := execute_effect s.pins.cmd s.accepted
    exact ⟨t, h.trans ht⟩
  · exact ⟨_, h⟩

/-- A run never stops, and ends in a state that meets the invariant where it began in one. -/
theorem run_inv (n : Nat) : ∀ {s : State}, s.Inv → ∃ t, run n s = .next t ∧ t.Inv := by
  induction n with
  | zero => exact fun {s} h => ⟨s, rfl, h⟩
  | succ n ih =>
    intro s h
    obtain ⟨u, hu⟩ := everyStepGoesOn s
    obtain ⟨t, ht, hinv⟩ := ih (everyStepKeepsTheInvariant s u h hu)
    exact ⟨t, (run_succ_of_step hu).trans ht, hinv⟩

/-- A bit that is set is no reserved bit. -/
theorem getLsbD_mask_of_reserved_zero {x m : Word} (h : x &&& ~~~m = 0) {k : Nat} (hk : x.getLsbD k = true) :
    k < 32 ∧ m.getLsbD k = true := by
  have hk32 := BitVec.lt_of_getLsbD hk
  have hz := congrArg (fun v : Word => v.getLsbD k) h
  simpa [hk, hk32] using hz

theorem gconfFieldMask_bits : ∀ k < 32, gconfFieldMask.getLsbD k = true → k < 10 := by decide

theorem iholdIrunFieldMask_bits : ∀ k < 32, iholdIrunFieldMask.getLsbD k = true →
    k < 5 ∨ (8 ≤ k ∧ k < 13) ∨ (16 ≤ k ∧ k < 20) := by decide

theorem chopconfFieldMask_bits : ∀ k < 32, chopconfFieldMask.getLsbD k = true →
    k < 11 ∨ (15 ≤ k ∧ k < 18) ∨ 24 ≤ k := by decide

/-- Settles O6: the invariant holds along every run from reset (`run_inv`), and a bit that is set is a bit of the field
mask. -/
theorem reservedBitsAreZeroAtEveryPointOfEveryRun : Obligations.ReservedBitsAreZeroAtEveryPointOfEveryRun := by
  intro l tb n
  obtain ⟨t, ht, hinv⟩ := run_inv n (s := { State.reset with inputs := l, timing := tb })
    { resetStateMeetsTheInvariant with }
  obtain ⟨hg, hi, hc⟩ := hinv.reservedZero
  refine ⟨t, ht, ?_, fun k hk => ?_, fun k hk => ?_⟩
  · refine Nat.lt_pow_two_of_testBit _ fun k hk => ?_
    by_contra hbit
    obtain ⟨hlt, hm⟩ := getLsbD_mask_of_reserved_zero hg (Bool.eq_true_of_not_eq_false hbit)
    exact absurd (gconfFieldMask_bits k hlt hm) (Nat.not_lt.2 hk)
  · obtain ⟨hlt, hm⟩ := getLsbD_mask_of_reserved_zero hi hk
    exact iholdIrunFieldMask_bits k hlt hm
  · obtain ⟨hlt, hm⟩ := getLsbD_mask_of_reserved_zero hc hk
    exact chopconfFieldMask_bits k hlt hm

end Sys2Proof.Machine
end

section
/-! PROOFS. Decoding the words the encoder makes (30_encoding.md R82 to R86, R91): one lemma for each family of commands,
since a word built from fields reads back as its fields. -/

namespace Sys2Proof

/-- A field setter's word passes the checks with a register's address, and `SEL` selects the field. -/
theorem decode_setf_word {a : Addr} (ha : isShadowAddr a = true) (sel : BitVec 4) (t : Bool) (d : Word) {i : Instr}
    (hi : decodeSetf a sel t d = some i) : decode ⟨mkWord t a sel 0x1, d⟩ = .instr i := by
  simp [decode, ha, hi]

theorem decode_wrreg_word {a : Addr} (ha : isChipAddr a = true) (d : Word) :
    decode ⟨mkWord false a 0 0x2, d⟩ = .instr (.wrreg a d) := by
  simp [decode, ha]

theorem decode_send_word {a : Addr} (ha : isShadowAddr a = true) (d : Word) :
    decode ⟨mkWord false a 0 0x3, d⟩ = .instr (.send a d) := by
  simp [decode, ha]

/-- The commands without operand bits in their word pass the checks with zeros everywhere above `OP`. -/
theorem decode_plain_word {op : BitVec 4} (hlt : op.toNat < 0xA) (h1 : op ≠ 1#4) (h2 : op ≠ 2#4) (h3 : op ≠ 3#4)
    (d : Word) : decode ⟨mkWord false 0 0 op, d⟩ = decodePlain op d := by
  have hlt' : ¬ 10 ≤ op.toNat := Nat.not_le.2 hlt
  simp [decode, hlt', h1, h2, h3]

/-- Settles O16: a word built from fields reads back as its fields, family by family (`decode_setf_word`,
`decode_wrreg_word`, `decode_send_word`, `decode_plain_word`). -/
theorem decodeOfEncodeIsTheInstruction : Obligations.DecodeOfEncodeIsTheInstruction := by
  intro i hwf
  cases i with
  | wrreg a d => exact decode_wrreg_word hwf d
  | send a d => exact decode_send_word hwf d
  | nop d | crcClr d | crcByte d | txb d | setsettle d | setgap d | wait d =>
    exact decode_plain_word (by decide) (by decide) (by decide) (by decide) d
  | _ t d => exact decode_setf_word (by decide) _ t d rfl

/-- Settles O17: what `Decode` answers is well formed (`decode_operands`) and encoded as the command
(`encode_of_decode`). -/
theorem encodeOfDecodeIsTheCommand : Obligations.EncodeOfDecodeIsTheCommand := fun _ _ h =>
  ⟨(decode_operands h).1, encode_of_decode h⟩

/-- Settles O18: each stated word is the encoding of its instruction, which decodes to itself. -/
theorem statedWordsDecode : Obligations.StatedWordsDecode := by
  intro d
  have h := decodeOfEncodeIsTheInstruction
  exact ⟨h (.nop d) rfl, h (.setfGconfIScaleAnalog false d) rfl, h (.setfGconfShaft true d) rfl,
    h (.setfGconfTestMode false d) rfl, h (.setfIholdIrunIhold false d) rfl, h (.setfIholdIrunIrun false d) rfl,
    h (.setfIholdIrunIholddelay true d) rfl, h (.setfChopconfToff false d) rfl, h (.setfChopconfMres true d) rfl,
    h (.setfChopconfDiss2vs false d) rfl, h (.wrreg 0x22 d) rfl, h (.send 0x6C d) rfl, h (.crcClr d) rfl,
    h (.crcByte d) rfl, h (.txb d) rfl, h (.setsettle d) rfl, h (.setgap d) rfl, h (.wait d) rfl⟩

end Sys2Proof
end

section
/-! PROOFS. The ports (10_state.md R20 to R23) and reset (70_reset_and_hazards.md R280, R281): what stands on the outputs
after each kind of edge. -/

namespace Sys2Proof.Machine

open Sys2Proof.Spec

theorem step_of_reset {s : State} (h : s.pins.rstN = false) : step s = .next s.resetEdge := by
  simp [step, State.edgeKind, h]

theorem State.noCommandEdge_rstnLast (s : State) : s.noCommandEdge.rstnLast = true := by
  obtain ⟨-, -, -, -, -, -, -, -, hr, -⟩ := State.tick_registers
    { s with inputs := afterNoCommand s.inputs, rstnLast := true }
  exact hr

/-- `rst_n` at the last edge is what stood on the pin. -/
theorem step_rstnLast {s t : State} (h : step s = .next t) : t.rstnLast = s.pins.rstN := by
  obtain ⟨hr, hs⟩ | ⟨hr, -, -, hs⟩ | ⟨hr, -, hs⟩ := step_cases s <;> rw [hs] at h <;> rw [hr]
  · cases h
    rfl
  · obtain ⟨t', ht', heff⟩ := execute_effect s.pins.cmd s.accepted
    rw [ht'] at h
    cases h
    obtain ⟨-, -, -, hlast⟩ := heff.frame
    exact hlast
  · cases h
    exact s.noCommandEdge_rstnLast

/-- Settles O11: `cmd_ready` reads the level of `rst_n` at the last edge (`step_rstnLast`) and PHASE. -/
theorem commandReadyAfterEveryEdge : Obligations.CommandReadyAfterEveryEdge := by
  intro s t h
  simp [State.cmdReady, step_rstnLast h]

/-- Settles O3: `State.resetEdge` has an empty PEND and keeps the trace. -/
theorem resetCutsWhatIsOnTheLine : Obligations.ResetCutsWhatIsOnTheLine := fun s h =>
  ⟨s.resetEdge, step_of_reset h, rfl, rfl, rfl, rfl⟩

/-- After a reset edge the next edge without reset accepts nothing and makes the block ready. -/
theorem step_resetEdge {s : State} (h : s.resetEdge.pins.rstN = true) :
    ∃ u, step s.resetEdge = .next u ∧ SameRegisters s.resetEdge u ∧ u.pend = [] ∧ u.cmdReady = true :=
  ⟨s.resetEdge.noCommandEdge, step_of_not_accepting h (.inr rfl), s.resetEdge.noCommandEdge_sameRegisters, rfl, rfl⟩

/-- Settles O2: the reset edge of the state is the stated literal, and `step_resetEdge` is the edge after it. -/
theorem resetEdgeFromAnyState : Obligations.ResetEdgeFromAnyState := by
  intro s v c l hin
  have hpins : s.pins.rstN = false := by simp [State.pins, hin]
  have hlit : s.resetEdge = { State.reset with trace := s.trace, inputs := l, timing := s.timing } := by
    simp [State.resetEdge, hin]
  exact ⟨s.resetEdge, step_of_reset hpins, hlit, rfl, rfl, rfl, rfl, rfl, rfl, rfl, fun _ => rfl, rfl, rfl, rfl, rfl,
    step_resetEdge⟩

/-- Settles O8: an accepting edge executes its command (`step_of_accepts`), which is `exec` where it decodes. -/
theorem stepPerformsTheDecodedCommand : Obligations.StepPerformsTheDecodedCommand := by
  intro s c l i hacc hdec
  rw [step_of_accepts hacc, execute, hdec]

/-- Settles O14, bit by bit: bit `56 - 8 i + k` of the eight bytes side by side is past the `7 - i` bytes after byte `i`,
and bit `k` of that one. -/
theorem datagramPortBytes : Obligations.DatagramPortBytes := by
  intro s i hi
  apply BitVec.eq_of_getLsbD_eq
  intro k hk
  simp only [State.dgramPort, BitVec.getLsbD_extractLsb', BitVec.getLsbD_append, hk]
  interval_cases i <;> grind

end Sys2Proof.Machine
end

section
/-! PROOFS. What the commands do: the datagram that is sent (42_transport.md R200, R201), the 23 field setters
(40_register_model.md R123), WRREG, SEND, TXB, WAIT and the delay registers (42_transport.md R210 to R218). -/

namespace Sys2Proof.Machine

open Sys2Proof.Spec

/-! ### The events a command emits -/

theorem emitted_idle_cons (d : Word) (es : List WireEvent) : emitted (.idle d :: es) = idleEvent d ++ emitted es := by
  rw [emitted, idleEvent]
  split <;> rfl

theorem emitted_frame_cons (b : Byte) (es : List WireEvent) : emitted (.frame b :: es) = .frame b :: emitted es := rfl

theorem emitted_nil : emitted [] = [] := rfl

/-- The events of a datagram as R201 lists them, byte by byte with the gap between. -/
theorem emitted_datagramEvents (gap settle : Word) (a : Addr) (v : Word) :
    emitted (datagramEvents gap settle (datagram a v)) = sendEvents gap settle (datagram a v) := by
  simp [datagramEvents, datagram, datagramHead, framesWithGap, emitted_idle_cons, emitted_frame_cons, emitted_nil,
    sendEvents]

/-- What a command that emits events does. -/
theorem State.play_of_emitted {s : State} {es : List WireEvent} {e : WireEvent} {rest : List WireEvent}
    (h : emitted es = e :: rest) :
    s.play es = { s with phase := .busy, pend := e :: rest, bitIdx := 0, timer := 0 } := by
  rw [State.play, h]

/-- What a command that emits nothing does. -/
theorem State.play_of_emitted_nil {s : State} {es : List WireEvent} (h : emitted es = []) : s.play es = s := by
  rw [State.play, h]

/-! ### A datagram -/

theorem State.sendDatagram_pend (s : State) (a : Addr) (v : Word) :
    (s.sendDatagram a v).pend = sendEvents s.gapUs s.settleUs (datagram a v) := by
  obtain ⟨rest, hes, hsent⟩ := s.sendDatagram_busy a v
  rw [hsent, ← emitted_datagramEvents, hes]

theorem State.sendDatagram_phase (s : State) (a : Addr) (v : Word) : (s.sendDatagram a v).phase = .busy := by
  obtain ⟨rest, -, hsent⟩ := s.sendDatagram_busy a v
  rw [hsent]

theorem State.sendDatagram_atStart (s : State) (a : Addr) (v : Word) :
    (s.sendDatagram a v).bitIdx = 0 ∧ (s.sendDatagram a v).timer = 0 := by
  obtain ⟨rest, -, hsent⟩ := s.sendDatagram_busy a v
  rw [hsent]
  exact ⟨rfl, rfl⟩

/-- After a datagram was sent, `DGRAM` holds its bytes. -/
theorem State.sendDatagram_bytes (s : State) (a : Addr) (v : Word) :
    (List.range 8).map (s.sendDatagram a v).dgramByte = datagram a v := by
  simp [List.range_succ, State.sendDatagram_dgramByte, datagram, datagramHead]

/-- The register byte: the write flag is the bit above the address. -/
theorem register_byte : ∀ a : Addr, a.setWidth 8 ||| Config.writeFlag = BitVec.ofNat 8 (a.toNat + 128) := by decide

/-- Sending a datagram does what R200 and R201 say, and nothing else. -/
theorem State.sendDatagram_sent (s : State) (a : Addr) (v : Word) : DatagramSent a v s (s.sendDatagram a v) := by
  have hbyte := s.sendDatagram_dgramByte a v
  have hv := v.isLt
  constructor
  case registerByte => rw [hbyte]; exact register_byte a
  case value2 | value1 | value0 =>
    rw [hbyte]
    simp [datagram, datagramHead, Nat.shiftRight_eq_div_pow]
  case value3 =>
    rw [hbyte]
    simp [datagram, datagramHead, Nat.shiftRight_eq_div_pow]
    omega
  case crcByte => simp [hbyte, List.range_succ, datagram, datagramHead]
  case otherBytes => exact fun i hi => by rw [hbyte, if_neg (Nat.not_lt.2 hi)]
  case busy => exact s.sendDatagram_phase a v
  case events =>
    rw [s.sendDatagram_pend a v]
    simp [hbyte, List.range_succ, datagram, datagramHead, sendEvents]
  case atStart => exact s.sendDatagram_atStart a v
  case syncByte | slaveByte => rw [hbyte]; rfl
  all_goals simp

/-! ### The field setters -/

/-- A field setter follows its rule (R123) with the constants of its row of `Layout`. -/
theorem setterRule_of_row (f : FieldRow) {mk : Bool → Word → Instr}
    (hexec : ∀ t d s, exec (mk t d) s = setField f t d s) :
    SetterRule (fun s => s.readShadow f.reg) (fun v s => s.writeShadow f.reg v) f.reg.addr mk f.bits f.lo
      f.max.toNat := by
  intro d s
  refine ⟨fun hd => ⟨?_, _, (hexec true d s).trans (setField_sends hd s), State.sendDatagram_sent _ _ _⟩,
    fun hd t => ?_⟩
  · exact (hexec false d s).trans (setField_writes hd s)
  · rw [hexec, setField_rejects hd, State.reject, errAfter_eq_stickyErr]

/-- Settles O20: each of the ten is `setterRule_of_row` of its row, whose constants are those of the rule. -/
theorem gconfSettersSetTheirBit : Obligations.GconfSettersSetTheirBit :=
  ⟨setterRule_of_row Layout.gconfIScaleAnalog fun _ _ _ => rfl,
    setterRule_of_row Layout.gconfInternalRsense fun _ _ _ => rfl,
    setterRule_of_row Layout.gconfEnSpreadcycle fun _ _ _ => rfl,
    setterRule_of_row Layout.gconfShaft fun _ _ _ => rfl,
    setterRule_of_row Layout.gconfIndexOtpw fun _ _ _ => rfl,
    setterRule_of_row Layout.gconfIndexStep fun _ _ _ => rfl,
    setterRule_of_row Layout.gconfPdnDisable fun _ _ _ => rfl,
    setterRule_of_row Layout.gconfMstepRegSelect fun _ _ _ => rfl,
    setterRule_of_row Layout.gconfMultistepFilt fun _ _ _ => rfl,
    setterRule_of_row Layout.gconfTestMode fun _ _ _ => rfl⟩

/-- Settles O21: each of the three is `setterRule_of_row` of its row. -/
theorem iholdIrunSettersSetTheirField : Obligations.IholdIrunSettersSetTheirField :=
  ⟨setterRule_of_row Layout.iholdIrunIhold fun _ _ _ => rfl,
    setterRule_of_row Layout.iholdIrunIrun fun _ _ _ => rfl,
    setterRule_of_row Layout.iholdIrunIholddelay fun _ _ _ => rfl⟩

/-- Settles O22: each of the ten is `setterRule_of_row` of its row. -/
theorem chopconfSettersSetTheirField : Obligations.ChopconfSettersSetTheirField :=
  ⟨setterRule_of_row Layout.chopconfToff fun _ _ _ => rfl,
    setterRule_of_row Layout.chopconfHstrt fun _ _ _ => rfl,
    setterRule_of_row Layout.chopconfHend fun _ _ _ => rfl,
    setterRule_of_row Layout.chopconfTbl fun _ _ _ => rfl,
    setterRule_of_row Layout.chopconfVsense fun _ _ _ => rfl,
    setterRule_of_row Layout.chopconfMres fun _ _ _ => rfl,
    setterRule_of_row Layout.chopconfIntpol fun _ _ _ => rfl,
    setterRule_of_row Layout.chopconfDedge fun _ _ _ => rfl,
    setterRule_of_row Layout.chopconfDiss2g fun _ _ _ => rfl,
    setterRule_of_row Layout.chopconfDiss2vs fun _ _ _ => rfl⟩

theorem execAll_cons {i : Instr} {is : List Instr} {s t : State} (h : exec i s = .next t) :
    execAll (i :: is) s = execAll is t := by
  rw [execAll, h]

/-- Settles O25: the rules of the three setters one after another, from the zero register. -/
theorem driverCurrentConstant : Obligations.DriverCurrentConstant := by
  intro s hs
  obtain ⟨hihold, hirun, hdelay⟩ := iholdIrunSettersSetTheirField
  have h1 : exec (.setfIholdIrunIhold false 16) s = .next { s with iholdIrun := 0x10 } := by
    simpa [hs] using ((hihold 16 s).1 (by decide)).1
  have h2 : exec (.setfIholdIrunIrun false 16) { s with iholdIrun := 0x10 } = .next { s with iholdIrun := 0x1010 } := by
    simpa using ((hirun 16 { s with iholdIrun := 0x10 }).1 (by decide)).1
  obtain ⟨t, h3, hsent⟩ := ((hdelay 8 { s with iholdIrun := 0x1010 }).1 (by decide)).2
  have hconst : ((0x1010 : Word) &&& ~~~(0x000F0000 : Word)) ||| ((8 : Word) <<< 16) = 0x00081010 := by decide
  simp only [hconst] at hsent
  obtain ⟨-, hihold, -⟩ := hsent.shadows
  refine ⟨t, ?_, hihold, hsent⟩
  rw [asmSetcur, execAll_cons h1, execAll_cons h2, execAll_cons h3, execAll]

/-! ### WRREG, SEND, TXB -/

/-- Settles O26: an address `Decode` accepts sends the data word, another is rejected. -/
theorem wrregSendsItsDataWord : Obligations.WrregSendsItsDataWord := by
  intro a d s
  have hchip : isChipAddr a = true ↔ a = 0x00 ∨ a = 0x10 ∨ a = 0x22 ∨ a = 0x6C := by
    simp [isChipAddr, isShadowAddr, Config.addrGconf, Config.addrIholdIrun, Config.addrChopconf, Config.addrVactual]
    tauto
  rw [← hchip]
  refine ⟨fun h => ⟨_, if_pos h, s.sendDatagram_sent a d⟩, fun h => ?_⟩
  rw [show exec (.wrreg a d) s = .next (s.reject .eAddr) from if_neg h, State.reject, errAfter_eq_stickyErr]

theorem shadowAt_eq_none {a : Addr} (h : ¬ (a = 0x00 ∨ a = 0x10 ∨ a = 0x6C)) : shadowAt a = none := by
  unfold shadowAt
  exact (if_neg fun e => h (.inl e)).trans <| (if_neg fun e => h (.inr (.inl e))).trans <|
    if_neg fun e => h (.inr (.inr e))

/-- Settles O27: the address selects the register that is sent (`shadowAt`), or none and the command is rejected. -/
theorem sendSendsTheShadow : Obligations.SendSendsTheShadow := by
  intro a d s
  refine ⟨⟨_, rfl, s.sendDatagram_sent _ _⟩, ⟨_, rfl, s.sendDatagram_sent _ _⟩, ⟨_, rfl, s.sendDatagram_sent _ _⟩,
    fun h => ?_⟩
  simp only [exec, execSend, shadowAt_eq_none h, State.reject, errAfter_eq_stickyErr]

theorem byteOperand_eq_setWidth (d : Word) : byteOperand d = d.setWidth 8 := by
  apply BitVec.eq_of_getLsbD_eq
  intro k hk
  simp [byteOperand, hk]

/-- TXB puts its character and the inter-byte delay on the line. -/
theorem exec_txb {d : Word} (hd : d.toNat < 256) (s : State) : exec (.txb d) s = .next
    { s with phase := .busy, pend := .frame (d.setWidth 8) :: idleEvent s.gapUs, bitIdx := 0, timer := 0 } := by
  have hes : emitted [.frame (byteOperand d), .idle s.gapUs] = .frame (d.setWidth 8) :: idleEvent s.gapUs := by
    simp [emitted_idle_cons, emitted_frame_cons, emitted_nil, byteOperand_eq_setWidth]
  rw [show exec (.txb d) s = .next (s.play [.frame (byteOperand d), .idle s.gapUs]) from
    if_pos ((isByteOperand_iff d).2 hd), State.play_of_emitted hes]

/-- Settles O28: a byte is sent (`exec_txb`), more than a byte is out of range. -/
theorem txbSendsOneCharacter : Obligations.TxbSendsOneCharacter := by
  refine fun d s => ⟨fun hd => exec_txb hd s, fun hd => ?_⟩
  have hrange : ¬ DataInRange (.txb d) := fun h => absurd (h 255 rfl) (Nat.not_le.2 hd)
  rw [exec_of_not_dataInRange hrange, State.reject, errAfter_eq_stickyErr]

/-! ### The delays -/

/-- Settles O29: both commands are one record update. -/
theorem delaySettersSetTheirRegister : Obligations.DelaySettersSetTheirRegister := fun _ _ => ⟨rfl, rfl⟩

/-- Settles O30: `Idle(0)` is not emitted, every other `Idle` is. -/
theorem waitHoldsTheLineIdle : Obligations.WaitHoldsTheLineIdle := by
  refine fun d s => ⟨congrArg Host.Outcome.next (State.play_of_emitted_nil rfl), fun hd => ?_⟩
  have hes : emitted [.idle d] = .idle d :: [] := if_neg hd
  exact congrArg Host.Outcome.next (State.play_of_emitted hes)

/-- Settles O31: NOP answers the state it is given. -/
theorem nopChangesNothing : Obligations.NopChangesNothing := fun _ _ => rfl

end Sys2Proof.Machine
end

section
/-! PROOFS. The writers of each register (10_state.md R24, R29, R30, R32, R34): what an accepted command changes is told
by the fields of its word. -/

namespace Sys2Proof.Machine

open Sys2Proof.Spec

theorem field_mkWord_op (t : Bool) (a : Addr) (sel op : BitVec 4) : field (mkWord t a sel op) 0 4 = op.toNat := by
  rw [field_op, opOf_mkWord]

theorem field_mkWord_addr (t : Bool) (a : Addr) (sel op : BitVec 4) : field (mkWord t a sel op) 8 7 = a.toNat := by
  rw [field_addr, addrOf_mkWord]

theorem field_mkWord_t (t : Bool) (a : Addr) (sel op : BitVec 4) : field (mkWord t a sel op) 15 1 = t.toNat := by
  rw [field_t, tOf_mkWord]

/-- A word whose commands send a datagram: WRREG, SEND, or a field setter with `T = 1`. -/
abbrev SendsDatagram (w : Word) : Prop :=
  field w 0 4 = 2 ∨ field w 0 4 = 3 ∨ (field w 0 4 = 1 ∧ field w 15 1 = 1)

/-- Every register that `t` holds another value of than `s` is one the commands with word `w` write. -/
structure OnlyItsWriters (w : Word) (s t : State) : Prop where
  gconf : t.gconf ≠ s.gconf → field w 0 4 = 1 ∧ field w 8 7 = 0x00
  iholdIrun : t.iholdIrun ≠ s.iholdIrun → field w 0 4 = 1 ∧ field w 8 7 = 0x10
  chopconf : t.chopconf ≠ s.chopconf → field w 0 4 = 1 ∧ field w 8 7 = 0x6C
  crcAcc : t.crcAcc ≠ s.crcAcc → field w 0 4 = 4 ∨ field w 0 4 = 5
  settleUs : t.settleUs ≠ s.settleUs → field w 0 4 = 7
  gapUs : t.gapUs ≠ s.gapUs → field w 0 4 = 8
  dgram : ∀ i, t.dgramByte i ≠ s.dgramByte i → SendsDatagram w

theorem OnlyItsWriters.refl (w : Word) (s : State) : OnlyItsWriters w s s :=
  ⟨absurd rfl, absurd rfl, absurd rfl, absurd rfl, absurd rfl, absurd rfl, fun _ => absurd rfl⟩

/-- `ERR` and the transmitter are none of these registers. -/
theorem OnlyItsWriters.reject (w : Word) (s : State) (c : ErrCode) : OnlyItsWriters w s (s.reject c) :=
  { OnlyItsWriters.refl _ s with }

theorem OnlyItsWriters.play (w : Word) (s : State) (es : List WireEvent) : OnlyItsWriters w s (s.play es) := by
  obtain ⟨-, h⟩ | ⟨e, rest, -, h⟩ := s.play_cases es <;> rw [h]
  · exact .refl w s
  · exact { OnlyItsWriters.refl _ s with }

/-- A datagram writes `DGRAM` beside what was written before it was sent. -/
theorem OnlyItsWriters.sendDatagram {w : Word} {s t : State} (h : OnlyItsWriters w s t) (hw : SendsDatagram w)
    (a : Addr) (v : Word) : OnlyItsWriters w s (t.sendDatagram a v) where
  gconf := by simpa using h.gconf
  iholdIrun := by simpa using h.iholdIrun
  chopconf := by simpa using h.chopconf
  crcAcc := by simpa using h.crcAcc
  settleUs := by simpa using h.settleUs
  gapUs := by simpa using h.gapUs
  dgram := fun _ _ => hw

theorem OnlyItsWriters.writeShadow {w : Word} (s : State) (r : ShadowReg) (v : Word) (hop : field w 0 4 = 1)
    (haddr : field w 8 7 = r.addr.toNat) : OnlyItsWriters w s (s.writeShadow r v) := by
  have hw : field w 0 4 = 1 ∧ field w 8 7 = r.addr.toNat := ⟨hop, haddr⟩
  cases r with
  | gconf => exact { OnlyItsWriters.refl _ s with gconf := fun _ => hw }
  | iholdIrun => exact { OnlyItsWriters.refl _ s with iholdIrun := fun _ => hw }
  | chopconf => exact { OnlyItsWriters.refl _ s with chopconf := fun _ => hw }

/-- A field setter writes its own register, and `DGRAM` with `T = 1`. -/
theorem setField_onlyItsWriters {f : FieldRow} {t : Bool} {d : Word} {s u : State} (h : setField f t d s = .next u)
    (sel : BitVec 4) : OnlyItsWriters (mkWord t f.reg.addr sel 0x1) s u := by
  by_cases hd : d.toNat ≤ f.max.toNat
  · have hwrite := OnlyItsWriters.writeShadow (w := mkWord t f.reg.addr sel 0x1) s f.reg
      (f.set (s.readShadow f.reg) d) (field_mkWord_op ..) (field_mkWord_addr ..)
    cases t with
    | false =>
      rw [setField_writes hd] at h
      cases h
      exact hwrite
    | true =>
      rw [setField_sends hd] at h
      cases h
      exact hwrite.sendDatagram (.inr (.inr ⟨field_mkWord_op .., field_mkWord_t ..⟩)) _ _
  · rw [setField_rejects (Nat.not_le.1 hd)] at h
    cases h
    exact .reject ..

/-- An instruction changes only registers that the commands with its word write. -/
theorem exec_onlyItsWriters {i : Instr} {s u : State} (h : exec i s = .next u) :
    OnlyItsWriters (encode i).word s u := by
  cases i with
  | nop d => cases h; exact .refl ..
  | wait d => cases h; exact .play ..
  | setsettle d =>
    cases h
    exact { OnlyItsWriters.refl _ s with settleUs := fun _ => field_mkWord_op .. }
  | setgap d =>
    cases h
    exact { OnlyItsWriters.refl _ s with gapUs := fun _ => field_mkWord_op .. }
  | crcClr d =>
    cases h
    exact { OnlyItsWriters.refl _ s with crcAcc := fun _ => .inl (field_mkWord_op ..) }
  | crcByte d =>
    simp only [exec, execCrcByte] at h
    split_ifs at h <;> cases h
    · exact { OnlyItsWriters.refl _ s with crcAcc := fun _ => .inr (field_mkWord_op ..) }
    · exact .reject ..
  | txb d =>
    simp only [exec, execTxb] at h
    split_ifs at h <;> cases h
    · exact .play ..
    · exact .reject ..
  | wrreg a d =>
    simp only [exec, execWrreg] at h
    split_ifs at h <;> cases h
    · exact (OnlyItsWriters.refl _ s).sendDatagram (.inl (field_mkWord_op ..)) a d
    · exact .reject ..
  | send a d =>
    simp only [exec, execSend] at h
    split at h <;> cases h
    · exact (OnlyItsWriters.refl _ s).sendDatagram (.inr (.inl (field_mkWord_op ..))) a _
    · exact .reject ..
  | _ t d => exact setField_onlyItsWriters h _

theorem execute_onlyItsWriters {c : Command} {s u : State} (h : execute c s = .next u) :
    OnlyItsWriters c.word s u := by
  unfold execute at h
  split at h
  · cases h
    exact .reject ..
  · next i hi =>
    have hexec := exec_onlyItsWriters h
    rwa [encode_of_decode hi] at hexec

/-- Settles O13: an edge that accepts nothing changes no register, and an accepted command only those its word tells
(`execute_onlyItsWriters`). -/
theorem eachRegisterHasItsWriters : Obligations.EachRegisterHasItsWriters := by
  intro s t hrst h
  obtain ⟨hr, -⟩ | ⟨-, hvalid, hready, hs⟩ | ⟨-, -, hs⟩ := step_cases s
  · simp [hrst] at hr
  · have hw := execute_onlyItsWriters (hs.symm.trans h)
    exact ⟨fun hne => ⟨⟨hvalid, hready⟩, hw.gconf hne⟩, fun hne => ⟨⟨hvalid, hready⟩, hw.iholdIrun hne⟩,
      fun hne => ⟨⟨hvalid, hready⟩, hw.chopconf hne⟩, fun hne => ⟨⟨hvalid, hready⟩, hw.crcAcc hne⟩,
      fun hne => ⟨⟨hvalid, hready⟩, hw.settleUs hne⟩, fun hne => ⟨⟨hvalid, hready⟩, hw.gapUs hne⟩,
      fun i hne => ⟨⟨hvalid, hready⟩, hw.dgram i hne⟩⟩
  · cases hs.symm.trans h
    obtain ⟨hgconf, hihold, hchop, hsettle, hgap, hcrc, -, hdgram⟩ := s.noCommandEdge_sameRegisters
    exact ⟨absurd hgconf, absurd hihold, absurd hchop, absurd hcrc, absurd hsettle, absurd hgap,
      fun i => absurd (congrArg (Memory.read · i) hdgram)⟩

end Sys2Proof.Machine
end

section
/-! PROOFS. The CRC engine and its commands (41_crc_engine.md R180 to R187): one bit of the CRC is linear in the
accumulator and the data bit together, which gives both the linearity and the table. -/

namespace Sys2Proof.Machine

open Sys2Proof.Spec

/-- What is fed back where the top bit and the data bit differ. -/
def feedback (differ : Bool) : Byte := if differ then Config.crcPoly else 0

theorem feedback_xor : ∀ p q : Bool, feedback (p ^^ q) = feedback p ^^^ feedback q := by decide

/-- One bit of the CRC is a shift and the feedback. -/
theorem crcBit_eq (c : Byte) (x : Bool) : crcBit c x = (c <<< 1) ^^^ feedback (c.getLsbD 7 ^^ x) := by
  unfold crcBit feedback
  cases c.getLsbD 7 <;> cases x <;> simp

/-- One bit of the CRC is linear in the accumulator and the data bit together. -/
theorem crcBit_xor (x y : Byte) (a b : Bool) : crcBit (x ^^^ y) (a ^^ b) = crcBit x a ^^^ crcBit y b := by
  have hdiffer : ((x ^^^ y).getLsbD 7 ^^ (a ^^ b)) = ((x.getLsbD 7 ^^ a) ^^ (y.getLsbD 7 ^^ b)) := by
    rw [BitVec.getLsbD_xor, Bool.xor_assoc, Bool.xor_left_comm _ a b, ← Bool.xor_assoc]
  rw [crcBit_eq, crcBit_eq, crcBit_eq, hdiffer, feedback_xor, BitVec.shiftLeft_xor_distrib]
  ac_rfl

theorem crcBits_xor (n : Nat) : ∀ (x y b b' : Byte) (j : Nat),
    crcBits (x ^^^ y) (b ^^^ b') j n = crcBits x b j n ^^^ crcBits y b' j n := by
  induction n with
  | zero => exact fun _ _ _ _ _ => rfl
  | succ n ih => exact fun x y b b' j => by rw [crcBits, BitVec.getLsbD_xor, crcBit_xor, ih]; rfl

/-- A data bit equal to the top bit only shifts. -/
theorem crcBit_top (y : Byte) : crcBit y (y.getLsbD 7) = y <<< 1 := if_neg (by simp)

theorem getLsbD_rev8 (b : Byte) (k : Nat) : (rev8 b).getLsbD k = (decide (k < 8) && b.getLsbD (7 - k)) := by
  rw [rev8, BitVec.getLsbD_ofFnLE]
  split <;> simp_all

/-- From bit `j` on, the data bits go through the feedback as if they stood in the accumulator, most significant
first. -/
theorem crcBits_eq_tabShift (b : Byte) (n : Nat) : ∀ (c : Byte) (j : Nat), j + n = 8 →
    crcBits c b j n = tabShift (c ^^^ (rev8 b <<< j)) n := by
  induction n with
  | zero =>
    rintro c j rfl
    rw [BitVec.shiftLeft_eq_zero (by decide), BitVec.xor_zero]
    rfl
  | succ n ih =>
    intro c j hj
    have htop : (rev8 b <<< j).getLsbD 7 = b.getLsbD j := by
      have hj7 : ¬ 7 < j := by omega
      have hj8 : 7 - j < 8 := by omega
      have hjj : 7 - (7 - j) = j := by omega
      rw [BitVec.getLsbD_shiftLeft, getLsbD_rev8]
      simp [hj7, hj8, hjj]
    have hbit : crcBit (c ^^^ (rev8 b <<< j)) false = crcBit c (b.getLsbD j) ^^^ (rev8 b <<< (j + 1)) := by
      rw [← Bool.xor_self (b.getLsbD j), crcBit_xor, ← htop, crcBit_top, BitVec.shiftLeft_add]
    rw [crcBits, ih _ _ (by omega), ← hbit]
    simp [tabShift, crcBit, Config.crcPoly]

theorem crc8Step_eq_tabShift (c b : Byte) : crc8Step c b = tabShift (c ^^^ rev8 b) 8 := by
  rw [crc8Step, crcBits_eq_tabShift b 8 c 0 rfl, BitVec.shiftLeft_zero]

/-- Settles O33: the table from `crcBits_eq_tabShift`, the linearity from `crcBits_xor`, and 16 entries computed. -/
theorem crcIsTableDrivenAndLinear : Obligations.CrcIsTableDrivenAndLinear := by
  refine ⟨crc8Step_eq_tabShift, fun c b => ?_, by decide⟩
  rw [crc8Step, crc8Step, crc8Step, ← crcBits_xor]
  simp

theorem crc8_append (bs : List Byte) (b : Byte) : crc8 (bs ++ [b]) = crc8Step (crc8 bs) b := by
  simp [crc8]

set_option maxRecDepth 20000 in
/-- Settles O34: Crc8 is a fold over the bytes; the vectors are computed. -/
theorem crcOfSequences : Obligations.CrcOfSequences :=
  ⟨rfl, crc8_append, by decide, by decide, by decide⟩

theorem exec_crcByte {d : Word} (hd : d.toNat < 256) (s : State) :
    exec (.crcByte d) s = .next { s with crcAcc := crc8Step s.crcAcc (d.setWidth 8) } := by
  rw [← byteOperand_eq_setWidth]
  exact if_pos ((isByteOperand_iff d).2 hd)

/-- Settles O35: CRC.CLR is one record update, CRC.BYTE takes a byte (`exec_crcByte`) or is out of range. -/
theorem crcCommandsDriveTheAccumulator : Obligations.CrcCommandsDriveTheAccumulator := by
  refine fun d s => ⟨rfl, fun hd => exec_crcByte hd s, fun hd => ?_⟩
  have hrange : ¬ DataInRange (.crcByte d) := fun h => absurd (h 255 rfl) (Nat.not_le.2 hd)
  rw [exec_of_not_dataInRange hrange, State.reject, errAfter_eq_stickyErr]

/-- CRC.BYTE of each byte folds the bytes into CRC_ACC. -/
theorem execAll_crcBytes (bs : List Byte) : ∀ s : State,
    execAll ((bs.map fun b => b.setWidth 32).map .crcByte) s = .next { s with crcAcc := bs.foldl crc8Step s.crcAcc } := by
  induction bs with
  | nil => exact fun _ => rfl
  | cons b bs ih =>
    intro s
    have hb : (b.setWidth 32).toNat < 256 := by
      have := b.isLt
      simp
      omega
    have hbyte := exec_crcByte hb s
    rw [BitVec.setWidth_setWidth_of_le _ (by decide), BitVec.setWidth_eq] at hbyte
    rw [List.map_cons, List.map_cons, execAll_cons hbyte, ih, List.foldl_cons]

/-- Settles O36: CRC.CLR, then the bytes one after another (`execAll_crcBytes`). -/
theorem crcPseudoInstructionComputesTheCrc : Obligations.CrcPseudoInstructionComputesTheCrc := fun bs s =>
  (execAll_cons (t := { s with crcAcc := 0x00 }) rfl).trans (execAll_crcBytes bs _)

end Sys2Proof.Machine
end

section
/-! PROOFS. Characters and delays on the line (42_transport.md R240 to R243): a character is played bit period by bit
period, each a unit of its own (`run_within_unit`, `run_unit`). -/

namespace Sys2Proof.Machine

open Sys2Proof.Spec

/-! ### Levels -/

/-- The level of each bit period of a character as R240 lists them. -/
theorem frameLevel_eq (b : Byte) {k : Nat} (hk : k < 10) :
    frameLevel b k = (if k = 0 then false else if k = 9 then true else b.toNat.testBit (k - 1)) := by
  unfold frameLevel
  by_cases h0 : k = 0
  · rw [if_pos h0, if_pos h0]
  by_cases h9 : k = 9
  · subst h9
    rfl
  · have hdata : k ≤ Config.dataBits := Nat.le_of_lt_succ (Nat.lt_of_le_of_ne (Nat.le_of_lt_succ hk) h9)
    rw [if_neg h0, if_neg h0, if_neg h9, if_pos hdata]
    rfl

theorem State.txLevel_frame {s : State} {b : Byte} {rest : List WireEvent} (h : s.pend = .frame b :: rest) :
    s.txLevel = frameLevel b s.bitIdx := by
  rw [State.txLevel, h]

theorem State.txLevel_idle {s : State} {d : Word} {rest : List WireEvent} (h : s.pend = .idle d :: rest) :
    s.txLevel = true := by
  rw [State.txLevel, h]

/-- Settles O37: `State.txLevel` is the level of the bit period on the line, and 1 where no character is. -/
theorem txPinLevels : Obligations.TxPinLevels := by
  intro s b d rest k
  refine ⟨fun hp hi => ?_, fun hp hk hi => ?_, fun hp hi => ?_, State.txLevel_idle, fun hp => by rw [State.txLevel, hp]⟩
  · rw [State.txLevel_frame hp, hi]
    rfl
  · rw [State.txLevel_frame hp, hi, frameLevel_eq b (by omega)]
    simp [Nat.ne_of_lt hk]
  · rw [State.txLevel_frame hp, hi]
    rfl

/-! ### One unit -/

/-- The last bit period of a character is number 9. -/
theorem isLastUnit_frame (b : Byte) (k : Nat) : isLastUnit (.frame b) k = true ↔ ¬ k < 9 :=
  decide_eq_true_iff.trans Nat.not_lt.symm

/-- The state with another list of slack. -/
def State.withSlack (s : State) (sl : List Nat) : State := { s with timing := { s.timing with slack := sl } }

/-- The unit on the line takes the first entry of slack. -/
theorem State.unitEdges_withSlack (s : State) (e : WireEvent) (sl : List Nat) :
    (s.withSlack sl).unitEdges e = unitLength s.timing e (sl.headD 0) := by
  cases e <;> rfl

/-- For every length between the fewest and the most edges there is a slack with which the unit on the line lasts it. -/
theorem run_unit_of_between {s : State} {e : WireEvent} {rest : List WireEvent} {n : Nat} (hb : s.phase = .busy)
    (hp : s.pend = e :: rest) (ht : s.timer = 0) (hn : s.inputs.all HostInput.noReset = true)
    (h₁ : fewestEdges s.timing e ≤ n) (h₂ : n ≤ mostEdges s.timing e) :
    ∃ sl : List Nat, unitLength s.timing e (sl.headD 0) = n ∧
      (∀ j, j < n → ∃ t, run j (s.withSlack sl) = .next t ∧
        t.pend = s.pend ∧ t.bitIdx = s.bitIdx ∧ t.trace = s.trace) ∧
      ∃ t, run n (s.withSlack sl) = .next t ∧
        if isLastUnit e s.bitIdx then t.pend = rest ∧ t.bitIdx = 0 ∧ t.trace = s.trace ++ [e]
        else t.pend = s.pend ∧ t.bitIdx = s.bitIdx + 1 ∧ t.trace = s.trace := by
  have hlen : unitLength s.timing e (n - fewestEdges s.timing e) = n := unitLength_of_between h₁ h₂
  refine ⟨[n - fewestEdges s.timing e], hlen, ?_⟩
  have hunit := (s.unitEdges_withSlack e [n - fewestEdges s.timing e]).trans hlen
  generalize [n - fewestEdges s.timing e] = sl at hunit
  have htimer : (s.withSlack sl).timer = 0 := ht
  constructor
  · intro j hj
    obtain ⟨l, r, -, hrun⟩ := run_within_unit (s := s.withSlack sl) hb hp hn j (by rwa [htimer, hunit, Nat.zero_add])
    exact ⟨_, hrun, rfl, rfl, rfl⟩
  · obtain ⟨l, r, -, hrun⟩ := run_unit (s := s.withSlack sl) hb hp hn (by
      rw [htimer]
      exact State.unitEdges_pos _ _)
    rw [hunit, htimer, Nat.sub_zero] at hrun
    refine ⟨_, hrun, ?_⟩
    have hbit : (s.withSlack sl).bitIdx = s.bitIdx := rfl
    rw [hbit]
    split_ifs <;> exact ⟨rfl, rfl, rfl⟩

/-- A delay that lasts at least its microseconds lasts at least one edge. -/
theorem idleWithin_pos {tb : Config.TimeBase} {d : Word} {n : Nat} (hd : d ≠ 0) (h : tb.idleWithin d.toNat n) :
    0 < n := by
  have hd' : 0 < d.toNat := Nat.pos_of_ne_zero fun h0 => hd (BitVec.eq_of_toNat_eq h0)
  have hpos : 0 < d.toNat * (tb.fClk.num : Nat) := Nat.mul_pos hd' tb.fClk.num.pos
  refine Nat.pos_of_ne_zero fun hn => ?_
  have hle := h.1
  simp only [hn, Nat.zero_mul] at hle
  omega

/-- Settles O49: a duration within the tolerance is between the fewest and the most edges (`bitWithin_iff`,
`idleWithin_iff`), so some slack gives it (`run_unit_of_between`). -/
theorem everyDurationWithinTheTolerancesOccurs : Obligations.EveryDurationWithinTheTolerancesOccurs := by
  intro s rest n hb ht hn
  refine ⟨fun b k hp hk hk10 hpos hwithin => ?_, fun d hp hd hwithin => ?_⟩
  · obtain ⟨h₁, h₂⟩ := (bitWithin_iff s.timing b hpos).1 hwithin
    obtain ⟨sl, hlen, hduring, t, hrun, hend⟩ := run_unit_of_between hb hp ht hn h₁ h₂
    subst hk
    refine ⟨sl, hlen, hduring, t, hrun, ?_⟩
    by_cases hk9 : s.bitIdx < 9 <;> simpa [isLastUnit_frame, hk9] using hend
  · obtain ⟨h₁, h₂⟩ := (idleWithin_iff s.timing d (idleWithin_pos hd hwithin)).1 hwithin
    obtain ⟨sl, hlen, hduring, t, hrun, hpend, -, htrace⟩ := run_unit_of_between hb hp ht hn h₁ h₂
    refine ⟨sl, hlen, fun j hj => ?_, t, hrun, hpend, htrace⟩
    obtain ⟨u, hu, hupend, -, hutrace⟩ := hduring j hj
    exact ⟨u, hu, hupend, hutrace⟩

/-- Settles O39: an `Idle` is one unit, as long as `State.unitEdges` says. -/
theorem idleLastsAtLeastItsDelay : Obligations.IdleLastsAtLeastItsDelay := by
  intro s d rest hb hp hd _ ht hn
  have hclk : 0 < 1000000 * (s.timing.fClk.den : Nat) := Nat.mul_pos (by decide) s.timing.fClk.den.pos
  have hfewest : ∀ k, fewestEdges s.timing (.idle d) ≤ k →
      d.toNat * s.timing.fClk.num ≤ k * 1000000 * s.timing.fClk.den := by
    intro k hk
    rw [Nat.mul_assoc]
    exact (ceilDiv_le_iff hclk).1 (Nat.le_trans (Nat.le_max_right _ _) hk)
  have hunit : fewestEdges s.timing (.idle d) ≤ s.unitEdges (.idle d) := fewestEdges_le_unitLength _ _ _
  constructor
  · intro k hk
    have hlt : k < s.unitEdges (.idle d) := by
      by_contra hge
      exact absurd (hfewest k (Nat.le_trans hunit (Nat.le_of_not_lt hge))) (Nat.not_le.2 hk)
    obtain ⟨l, r, -, hrun⟩ := run_within_unit hb hp hn k (by rwa [ht, Nat.zero_add])
    exact ⟨_, hrun, rfl, State.txLevel_idle hp, rfl⟩
  · obtain ⟨l, r, -, hrun⟩ := run_unit hb hp hn (by rw [ht]; exact s.unitEdges_pos _)
    rw [ht, Nat.sub_zero] at hrun
    refine ⟨_, _, hfewest _ hunit, ?_, hrun, rfl, rfl⟩
    rintro ⟨m, hm⟩
    obtain ⟨h₁, h₂⟩ := (idleWithin_iff s.timing d (idleWithin_pos hd hm)).1 hm
    exact (idleWithin_iff s.timing d (s.unitEdges_pos _)).2 ⟨hunit, unitLength_le_mostEdges (Nat.le_trans h₁ h₂) _⟩

/-! ### A character -/

/-- The block is busy, about to play a character, and no reset comes. -/
structure State.AtFrame (s : State) (b : Byte) (rest : List WireEvent) : Prop where
  busy : s.phase = .busy
  pend : s.pend = .frame b :: rest
  atFirstBit : s.bitIdx = 0
  atFirstEdge : s.timer = 0
  noReset : s.inputs.all HostInput.noReset = true

/-- The edges of bit period `k` of the coming character. -/
def State.bitEdges (s : State) (b : Byte) (k : Nat) : Nat := unitLength s.timing (.frame b) (s.timing.slack.getD k 0)

/-- The edges of the first `k` bit periods. -/
def State.edgesBefore (s : State) (b : Byte) (k : Nat) : Nat := ((List.range k).map (s.bitEdges b)).sum

/-- The state at the start of bit period `k`, whatever the host has done meanwhile. -/
def State.atBit (s : State) (k : Nat) (l : List HostInput) (r : Bool) : State :=
  { s with
    bitIdx := k, timer := 0, timing := { s.timing with slack := s.timing.slack.drop k }, inputs := l, rstnLast := r }

theorem State.edgesBefore_succ (s : State) (b : Byte) (k : Nat) :
    s.edgesBefore b (k + 1) = s.edgesBefore b k + s.bitEdges b k := by
  simp [State.edgesBefore, List.range_succ]

theorem State.bitEdges_pos (s : State) (b : Byte) (k : Nat) : 0 < s.bitEdges b k := unitLength_pos _ _ _

theorem State.unitEdges_atBit (s : State) (b : Byte) (k : Nat) (l : List HostInput) (r : Bool) :
    (s.atBit k l r).unitEdges (.frame b) = s.bitEdges b k := by
  have hhead : (s.timing.slack.drop k).headD 0 = s.timing.slack.getD k 0 := by
    rw [List.headD_eq_head?_getD, List.head?_drop, List.getD_eq_getElem?_getD]
  exact congrArg (unitLength s.timing (.frame b)) hhead

section
variable {s : State} {b : Byte} {rest : List WireEvent} (h : s.AtFrame b rest)
include h

theorem State.AtFrame.atBit_zero : s.atBit 0 s.inputs s.rstnLast = s := by
  obtain ⟨-, -, hbit, hedge, -⟩ := h
  cases s
  simp_all [State.atBit]

/-- Bit period after bit period, the run comes to the start of each. -/
theorem State.AtFrame.run_to_bit (k : Nat) (hk : k < 10) : ∃ l r, l.all HostInput.noReset = true ∧
    run (s.edgesBefore b k) s = .next (s.atBit k l r) := by
  induction k with
  | zero => exact ⟨s.inputs, s.rstnLast, h.noReset, congrArg Host.Outcome.next h.atBit_zero.symm⟩
  | succ k ih =>
    obtain ⟨l, r, hl, hrun⟩ := ih (by omega)
    obtain ⟨l', r', hl', hunit⟩ := run_unit (s := s.atBit k l r) h.busy h.pend hl (State.unitEdges_pos _ _)
    have hlast : ¬ isLastUnit (.frame b) (s.atBit k l r).bitIdx = true := by
      rw [isLastUnit_frame, not_not]
      exact Nat.lt_of_succ_lt_succ hk
    rw [if_neg hlast, State.unitEdges_atBit] at hunit
    refine ⟨l', r', hl', ?_⟩
    rw [s.edgesBefore_succ b k, run_add hrun]
    refine hunit.trans ?_
    simp [State.atBit, nextUnit, List.tail_drop]

/-- Through the edges of bit period `k` the character is on the line at that period's level. -/
theorem State.AtFrame.run_in_bit {k j : Nat} (hk : k < 10) (h₁ : s.edgesBefore b k ≤ j)
    (h₂ : j < s.edgesBefore b (k + 1)) : ∃ t, run j s = .next t ∧ t.pend = s.pend ∧ t.trace = s.trace ∧
      t.txLevel = (if k = 0 then false else if k = 9 then true else b.toNat.testBit (k - 1)) := by
  obtain ⟨l, r, hl, hrun⟩ := h.run_to_bit k hk
  rw [s.edgesBefore_succ b k] at h₂
  obtain ⟨l', r', -, hin⟩ := run_within_unit (s := s.atBit k l r) h.busy h.pend hl (j - s.edgesBefore b k) (by
    rw [State.unitEdges_atBit]
    simp only [State.atBit]
    omega)
  rw [← run_add hrun, Nat.add_sub_cancel' h₁] at hin
  exact ⟨_, hin, rfl, rfl, by rw [← frameLevel_eq b hk]; exact State.txLevel_frame h.pend⟩

/-- After its ten bit periods the character has ended. -/
theorem State.AtFrame.run_to_end : ∃ t, run (s.edgesBefore b 10) s = .next t ∧ t.pend = rest ∧
    t.trace = s.trace ++ [.frame b] ∧ (t.phase = .idle ↔ rest = []) := by
  obtain ⟨l, r, hl, hrun⟩ := h.run_to_bit 9 (by decide)
  obtain ⟨l', r', -, hunit⟩ := run_unit (s := s.atBit 9 l r) h.busy h.pend hl (State.unitEdges_pos _ _)
  rw [State.unitEdges_atBit] at hunit
  refine ⟨_, (congrArg (run · s) (s.edgesBefore_succ b 9)).trans ((run_add hrun).trans hunit), rfl, rfl, ?_⟩
  cases rest with
  | nil => exact ⟨fun _ => rfl, fun _ => rfl⟩
  | cons e rest => simp [State.endEvent, State.atBit, isLastUnit_frame, h.busy]

end

/-- Settles O48: the ten numbers are the units of the ten bit periods, each within the tolerance where any number of
edges is (`unitLength_le_mostEdges`). -/
theorem characterHoldsTheBaudTolerance : Obligations.CharacterHoldsTheBaudTolerance := by
  intro s b rest hb hp hi ht hn
  have h : s.AtFrame b rest := ⟨hb, hp, hi, ht, hn⟩
  have htake : ∀ k ≤ 10, (((List.range 10).map (s.bitEdges b)).take k).sum = s.edgesBefore b k := by
    intro k hk
    rw [← List.map_take, List.take_range, Nat.min_eq_left hk]
    rfl
  refine ⟨(List.range 10).map (s.bitEdges b), by simp, ?_, ?_, fun k j hk h₁ h₂ => ?_, ?_⟩
  · simp only [List.mem_map]
    rintro n ⟨k, -, rfl⟩
    exact s.bitEdges_pos b k
  · rintro ⟨m, hm, hwithin⟩ n hn
    obtain ⟨k, -, rfl⟩ := List.mem_map.1 hn
    obtain ⟨h₁, h₂⟩ := (bitWithin_iff s.timing b hm).1 hwithin
    exact (bitWithin_iff s.timing b (s.bitEdges_pos b k)).2
      ⟨fewestEdges_le_unitLength _ _ _, unitLength_le_mostEdges (Nat.le_trans h₁ h₂) _⟩
  · rw [htake k (Nat.le_of_lt hk)] at h₁
    rw [htake (k + 1) hk] at h₂
    exact h.run_in_bit hk h₁ h₂
  · obtain ⟨t, hrun, hpend, htrace, -⟩ := h.run_to_end
    exact ⟨t, hrun, hpend, htrace⟩

/-- Settles O38: where the ten units ask for one slack, the first `k` bit periods last `k n` edges. -/
theorem characterIsTenEqualBitPeriods : Obligations.CharacterIsTenEqualBitPeriods := by
  intro s b rest k n hb hp hi ht hslack hunit hn
  have h : s.AtFrame b rest := ⟨hb, hp, hi, ht, hn⟩
  have hhead : s.timing.slack.headD 0 = k := by
    rw [← hslack 0 (by decide)]
    cases s.timing.slack <;> rfl
  have hbit : ∀ i < 10, s.bitEdges b i = n := by
    intro i hi10
    rw [← hunit, State.bitEdges, State.unitEdges, hslack i hi10, hhead]
  have hbefore : ∀ i ≤ 10, s.edgesBefore b i = i * n := by
    intro i hi10
    induction i with
    | zero => simp [State.edgesBefore]
    | succ i ih => rw [s.edgesBefore_succ, ih (by omega), hbit i (by omega), Nat.succ_mul]
  have hpos : 0 < n := hunit ▸ s.unitEdges_pos _
  refine ⟨hpos, fun j hj => ?_, hbefore 10 (Nat.le_refl _) ▸ h.run_to_end⟩
  have hj10 : j / n < 10 := (Nat.div_lt_iff_lt_mul hpos).2 hj
  refine h.run_in_bit hj10 ?_ ?_
  · rw [hbefore _ (Nat.le_of_lt hj10)]
    exact Nat.div_mul_le_self j n
  · rw [hbefore _ hj10, Nat.succ_mul]
    exact Nat.lt_div_mul_add hpos

end Sys2Proof.Machine
end

section
/-! PROOFS. A busy block becomes idle (60_exceptions.md R259, R263): an edge without a command takes one from
`State.drainEdges` and keeps the invariant, the registers and the events of the line. -/

namespace Sys2Proof.Machine

open Sys2Proof.Spec

/-! ### The edges left -/

/-- The units still to play are the one on the line and those after it. -/
theorem unitsOf_drop_frame (b : Byte) (rest : List WireEvent) {k : Nat} (hk : k ≤ stopBit) :
    (unitsOf (.frame b :: rest)).drop k = .frame b ::
      (if isLastUnit (.frame b) k then unitsOf rest else (unitsOf (.frame b :: rest)).drop (k + 1)) := by
  have hlen : k < (unitsOf (.frame b :: rest)).length := by
    simp only [unitsOf, List.length_append, List.length_replicate]
    omega
  have hhead : (unitsOf (.frame b :: rest))[k] = .frame b := by
    simp only [unitsOf]
    rw [List.getElem_append_left (by simpa using Nat.lt_succ_of_le hk), List.getElem_replicate]
  rw [List.drop_eq_getElem_cons hlen, hhead]
  split_ifs with hlast
  · have hk9 : k + 1 = (List.replicate (stopBit + 1) (WireEvent.frame b)).length := by
      rw [List.length_replicate, Nat.le_antisymm hk (Nat.le_of_not_lt ((isLastUnit_frame b k).1 hlast))]
    rw [unitsOf, List.drop_left' hk9.symm]
  · rfl

theorem State.unitsLeft {s : State} {e : WireEvent} {rest : List WireEvent} (h : s.placeLegal)
    (hp : s.pend = e :: rest) : (unitsOf s.pend).drop s.bitIdx =
      e :: (if isLastUnit e s.bitIdx then unitsOf rest else (unitsOf s.pend).drop (s.bitIdx + 1)) := by
  unfold State.placeLegal at h
  cases e with
  | frame b =>
    simp only [hp] at h ⊢
    exact unitsOf_drop_frame b rest h.1
  | idle d =>
    simp only [hp] at h ⊢
    rw [h.1]
    rfl

theorem State.timer_lt_unitEdges {s : State} {e : WireEvent} {rest : List WireEvent} (h : s.placeLegal)
    (hp : s.pend = e :: rest) : s.timer < s.unitEdges e := by
  unfold State.placeLegal at h
  cases e <;> simp only [hp] at h <;> exact h.2

theorem totalEdges_nextUnit (tb : Config.TimeBase) (us : List WireEvent) : ∀ sl : List Nat,
    totalEdges (nextUnit tb) us sl = totalEdges tb us sl := by
  induction us with
  | nil => exact fun _ => rfl
  | cons u us ih =>
    intro sl
    have hunit : unitLength (nextUnit tb) u (sl.headD 0) = unitLength tb u (sl.headD 0) := by cases u <;> rfl
    rw [totalEdges, totalEdges, ih, hunit]

/-- The edges left are those of the unit on the line and of the units after it. -/
theorem State.drainEdges_eq {s : State} {e : WireEvent} {rest : List WireEvent} (h : s.placeLegal)
    (hp : s.pend = e :: rest) : s.drainEdges = s.unitEdges e + totalEdges s.timing
      (if isLastUnit e s.bitIdx then unitsOf rest else (unitsOf s.pend).drop (s.bitIdx + 1)) s.timing.slack.tail -
        s.timer := by
  rw [State.drainEdges, State.unitsLeft h hp, totalEdges]
  rfl

/-- One edge of the transmitter is one edge less to play. -/
theorem State.drainEdges_tick {s : State} {e : WireEvent} {rest : List WireEvent} (h : s.placeLegal)
    (hp : s.pend = e :: rest) : s.tick.drainEdges + 1 = s.drainEdges := by
  have htimer := State.timer_lt_unitEdges h hp
  rw [State.drainEdges_eq h hp]
  by_cases hlt : s.timer + 1 < s.unitEdges e
  · rw [State.tick_of_lt hp hlt]
    have hdrain : State.drainEdges { s with timer := s.timer + 1 } = totalEdges s.timing
        ((unitsOf s.pend).drop s.bitIdx) s.timing.slack - (s.timer + 1) := rfl
    rw [hdrain, State.unitsLeft h hp, totalEdges, ← State.unitEdges]
    omega
  · rw [State.tick_of_not_lt hp hlt]
    split_ifs <;>
    · simp only [State.drainEdges, State.endEvent, nextUnit, List.drop_zero]
      rw [← nextUnit, totalEdges_nextUnit]
      omega

theorem State.drainEdges_of_pend_nil {s : State} (hp : s.pend = []) : s.drainEdges = 0 := by
  rw [State.drainEdges, hp, unitsOf, List.drop_nil, totalEdges, Nat.zero_sub]

theorem State.Inv.pend_of_idle {s : State} (h : s.Inv) (hi : s.phase = .idle) : s.pend = [] := by
  obtain ⟨hbusy, -, -⟩ := h.pendLegal
  simpa [hi] using hbusy

theorem State.Inv.pend_of_busy {s : State} (h : s.Inv) (hb : s.phase = .busy) : ∃ e rest, s.pend = e :: rest := by
  obtain ⟨hbusy, -, -⟩ := h.pendLegal
  exact List.exists_cons_of_ne_nil (hbusy.1 hb)

/-- The block is busy exactly while it has edges left to play. -/
theorem State.Inv.busy_iff {s : State} (h : s.Inv) : s.phase = .busy ↔ 0 < s.drainEdges := by
  constructor
  · intro hb
    obtain ⟨e, rest, hp⟩ := h.pend_of_busy hb
    rw [← State.drainEdges_tick h.placeLegal hp]
    exact Nat.succ_pos _
  · intro hpos
    cases hphase : s.phase with
    | busy => rfl
    | idle =>
      rw [State.drainEdges_of_pend_nil (h.pend_of_idle hphase)] at hpos
      exact absurd hpos (Nat.lt_irrefl 0)

/-! ### Waiting for the block to become idle -/

theorem sameRegisters_refl (s : State) : SameRegisters s s := ⟨rfl, rfl, rfl, rfl, rfl, rfl, rfl, rfl⟩

theorem sameRegisters_trans {s t u : State} (h : SameRegisters s t) (h' : SameRegisters t u) : SameRegisters s u := by
  obtain ⟨h1, h2, h3, h4, h5, h6, h7, h8⟩ := h
  obtain ⟨h1', h2', h3', h4', h5', h6', h7', h8'⟩ := h'
  exact ⟨h1'.trans h1, h2'.trans h2, h3'.trans h3, h4'.trans h4, h5'.trans h5, h6'.trans h6, h7'.trans h7,
    h8'.trans h8⟩

/-- What edges without a command leave as it was, under a host of which `P` holds. -/
structure Waited (P : List HostInput → Prop) (s t : State) : Prop where
  inv : t.Inv
  host : P t.inputs
  registers : SameRegisters s t
  events : t.trace ++ t.pend = s.trace ++ s.pend

theorem Waited.noCommandEdge {P : List HostInput → Prop} (hnext : ∀ l, P l → P (afterNoCommand l)) {s t : State}
    (h : Waited P s t) : Waited P s t.noCommandEdge where
  inv := h.inv.noCommandEdge
  host := by
    rw [t.noCommandEdge_inputs]
    exact hnext _ h.host
  registers := sameRegisters_trans h.registers t.noCommandEdge_sameRegisters
  events := t.noCommandEdge_trace_append_pend.trans h.events

/-- Where a busy block steps by its transmitter alone, `k` edges leave `k` edges less to play. -/
theorem run_waits {P : List HostInput → Prop} (hnext : ∀ l, P l → P (afterNoCommand l))
    (hstep : ∀ u : State, u.phase = .busy → P u.inputs → step u = .next u.noCommandEdge) {s : State} (hinv : s.Inv)
    (hhost : P s.inputs) (k : Nat) (hk : k ≤ s.drainEdges) :
    ∃ t, run k s = .next t ∧ Waited P s t ∧ t.drainEdges + k = s.drainEdges ∧ (0 < k → t.rstnLast = true) := by
  induction k with
  | zero => exact ⟨s, rfl, ⟨hinv, hhost, sameRegisters_refl s, rfl⟩, rfl, fun h => absurd h (Nat.lt_irrefl 0)⟩
  | succ k ih =>
    obtain ⟨t, hrun, hw, hleft, -⟩ := ih (Nat.le_of_succ_le hk)
    have hbusy : t.phase = .busy := hw.inv.busy_iff.2 (by omega)
    obtain ⟨e, rest, hp⟩ := hw.inv.pend_of_busy hbusy
    have hless : t.noCommandEdge.drainEdges + 1 = t.drainEdges :=
      State.drainEdges_tick (s := { t with inputs := afterNoCommand t.inputs, rstnLast := true }) hw.inv.placeLegal hp
    refine ⟨t.noCommandEdge, ?_, hw.noCommandEdge hnext, by omega, fun _ => t.noCommandEdge_rstnLast⟩
    rw [run_add hrun, run_succ_of_step (hstep t hbusy hw.host), run_zero]

/-- When the edges left are over, the block is idle and its events are on the trace. -/
theorem Waited.done {P : List HostInput → Prop} {s t : State} (h : Waited P s t) (hd : t.drainEdges = 0) :
    t.phase = .idle ∧ t.pend = [] ∧ t.trace = s.trace ++ s.pend := by
  have hidle : t.phase = .idle := by
    cases hphase : t.phase with
    | idle => rfl
    | busy => exact absurd (h.inv.busy_iff.1 hphase) (by omega)
  have hp := h.inv.pend_of_idle hidle
  refine ⟨hidle, hp, ?_⟩
  rw [← h.events, hp, List.append_nil]

/-- Settles O40: with no reset coming, a busy block waits (`run_waits`) until it has no edges left. -/
theorem busyBlockBecomesIdle : Obligations.BusyBlockBecomesIdle := by
  intro s hinv hn
  have hwait := run_waits (P := fun l => l.all HostInput.noReset = true) (fun _ => afterNoCommand_noReset)
    (fun _ => step_of_busy) hinv hn
  constructor
  · intro k hk
    obtain ⟨t, hrun, hw, hleft, -⟩ := hwait k (Nat.le_of_lt hk)
    exact ⟨t, hrun, hw.inv.busy_iff.2 (by omega), hw.registers⟩
  · obtain ⟨t, hrun, hw, hleft, -⟩ := hwait _ (Nat.le_refl _)
    obtain ⟨hidle, hp, htrace⟩ := hw.done (by omega)
    exact ⟨t, hrun, hidle, hp, htrace, hw.registers⟩

/-- A busy block does not accept the command offered to it. -/
theorem step_of_busy_offer {s : State} {c : Command} {l : List HostInput} (hb : s.phase = .busy)
    (hin : s.inputs = .offer c :: l) : step s = .next s.noCommandEdge :=
  step_of_not_accepting (by simp [State.pins, hin]) (.inr (by simp [State.cmdReady, hb]))

/-- Settles O41: the offer stands through every edge the block waits (`run_waits`), and the ready block executes it
(`step_of_accepts`). -/
theorem offeredCommandIsPerformedLater : Obligations.OfferedCommandIsPerformedLater := by
  intro s c l hinv hb hin
  obtain ⟨t, hrun, hw, hleft, hlast⟩ := run_waits (P := fun inputs => inputs = .offer c :: l)
    (fun _ h => by rw [h]; rfl) (fun _ => step_of_busy_offer) hinv hin _ (Nat.le_refl _)
  obtain ⟨hidle, -, htrace⟩ := hw.done (by omega)
  have hready : t.rstnLast = true := hlast (hinv.busy_iff.1 hb)
  refine ⟨t, hrun, by simp [State.cmdReady, hready, hidle], hw.host, hw.registers, htrace, ?_⟩
  obtain ⟨u, hu, -⟩ := execute_effect c { t with inputs := l }
  have hstep := step_of_accepts ⟨hready, hidle, .inl hw.host⟩
  rw [run_add hrun, hu, run_succ_of_step (hstep.trans hu), run_zero]

end Sys2Proof.Machine
end

section
/-! PROOFS. What accepted commands put on the line (42_transport.md R201, R213, R217, R245, 30_encoding.md R95): their
events, how long a datagram keeps the block busy, and the trace as an observation (00_scope.md R12). -/

namespace Sys2Proof.Machine

open Sys2Proof.Spec

/-! ### The events of a command -/

@[simp] theorem State.writeShadow_gapUs (s : State) (r : ShadowReg) (v : Word) : (s.writeShadow r v).gapUs = s.gapUs := by
  cases r <;> rfl

@[simp] theorem State.writeShadow_settleUs (s : State) (r : ShadowReg) (v : Word) :
    (s.writeShadow r v).settleUs = s.settleUs := by
  cases r <;> rfl

@[simp] theorem State.writeShadow_timing (s : State) (r : ShadowReg) (v : Word) :
    (s.writeShadow r v).timing = s.timing := by
  cases r <;> rfl

@[simp] theorem State.writeShadow_pend (s : State) (r : ShadowReg) (v : Word) : (s.writeShadow r v).pend = s.pend := by
  cases r <;> rfl

/-- A field setter with `T = 1` ends in a datagram, from a state with the same delays and clock record. -/
theorem setField_sends_datagram {f : FieldRow} {d : Word} (hd : d.toNat ≤ f.max.toNat) (s : State) :
    ∃ (u : State) (a : Addr) (v : Word), setField f true d s = .next (u.sendDatagram a v) ∧ u.gapUs = s.gapUs ∧
      u.settleUs = s.settleUs ∧ u.timing = s.timing :=
  ⟨_, _, _, setField_sends hd s, by simp, by simp, by simp⟩

/-- A command that is not rejected and whose word sends a datagram ends in one, from a state with the same delays and
clock record. -/
theorem exec_sends {i : Instr} (hwf : i.wellFormed = true) (hr : DataInRange i) (hw : SendsDatagram (encode i).word)
    (s : State) : ∃ (u : State) (a : Addr) (v : Word), exec i s = .next (u.sendDatagram a v) ∧ u.gapUs = s.gapUs ∧
      u.settleUs = s.settleUs ∧ u.timing = s.timing := by
  cases i with
  | nop | crcClr | crcByte | txb | setsettle | setgap | wait => simp [SendsDatagram, encode, field_mkWord_op] at hw
  | wrreg a d => exact ⟨s, a, d, if_pos hwf, rfl, rfl, rfl⟩
  | send a d =>
    obtain ⟨r, hsel⟩ := shadowAt_of_isShadowAddr hwf
    exact ⟨s, a, s.readShadow r, by simp only [exec, execSend, hsel], rfl, rfl, rfl⟩
  | _ t d =>
    cases t with
    | false => simp [SendsDatagram, encode, field_mkWord_op, field_mkWord_t] at hw
    | true => exact setField_sends_datagram (hr _ rfl) s

/-- A field setter with `T = 0` puts nothing on the line. -/
theorem setField_pend {f : FieldRow} {d : Word} {s t : State} (hd : d.toNat ≤ f.max.toNat)
    (h : setField f false d s = .next t) : t.pend = s.pend := by
  rw [setField_writes hd] at h
  cases h
  simp

/-- The events pending after a command that is not rejected, by the fields of its word. -/
theorem exec_pend {i : Instr} {s t : State} (hwf : i.wellFormed = true) (hr : DataInRange i) (hp : s.pend = [])
    (h : exec i s = .next t) : t.pend =
      if SendsDatagram (encode i).word then sendEvents s.gapUs s.settleUs ((List.range 8).map t.dgramByte)
      else if field (encode i).word 0 4 = 6 then .frame ((encode i).data.setWidth 8) :: idleEvent s.gapUs
      else if field (encode i).word 0 4 = 9 then idleEvent (encode i).data
      else [] := by
  split_ifs with hw h6 h9
  · obtain ⟨u, a, v, hu, hgap, hsettle, -⟩ := exec_sends hwf hr hw s
    cases hu.symm.trans h
    rw [u.sendDatagram_pend, u.sendDatagram_bytes, hgap, hsettle]
  · cases i with
    | txb d =>
      have hd : d.toNat < 256 := Nat.lt_succ_of_le (hr 255 rfl)
      cases (exec_txb hd s).symm.trans h
      rfl
    | _ => simp [encode, field_mkWord_op] at h6
  · cases i with
    | wait d =>
      obtain ⟨hzero, hpos⟩ := waitHoldsTheLineIdle d s
      by_cases hd : d = 0
      · subst hd
        cases hzero.symm.trans h
        exact hp
      · cases (hpos hd).symm.trans h
        exact (if_neg hd).symm
    | _ => simp [encode, field_mkWord_op] at h9
  · cases i with
    | nop | crcClr | setsettle | setgap => cases h; exact hp
    | crcByte d =>
      have hd : d.toNat < 256 := Nat.lt_succ_of_le (hr 255 rfl)
      cases (exec_crcByte hd s).symm.trans h
      exact hp
    | txb => simp [encode, field_mkWord_op] at h6
    | wait => simp [encode, field_mkWord_op] at h9
    | wrreg | send => simp [SendsDatagram, encode, field_mkWord_op] at hw
    | _ t d =>
      cases t with
      | false => exact (setField_pend (hr _ rfl) h).trans hp
      | true => simp [SendsDatagram, encode, field_mkWord_op, field_mkWord_t] at hw

/-- Settles O46: without a command the events stay (`State.noCommandEdge_trace_append_pend`), a rejected command adds
none, and `exec_pend` lists those of the others. -/
theorem acceptedCommandsEmitTheirEvents : Obligations.AcceptedCommandsEmitTheirEvents := by
  intro s t hinv hrst h
  refine ⟨fun hno => ?_, fun hvalid hready => ?_⟩
  · cases (step_of_not_accepting hrst hno).symm.trans h
    exact s.noCommandEdge_trace_append_pend
  · obtain ⟨hr, -⟩ | ⟨-, -, -, hs⟩ | ⟨-, hno, -⟩ := step_cases s
    · simp [hrst] at hr
    · have hexec := hs.symm.trans h
      obtain ⟨t', ht', heff⟩ := execute_effect s.pins.cmd s.accepted
      cases ht'.symm.trans hexec
      obtain ⟨htrace, -, -, -⟩ := heff.frame
      have hidle : s.phase = .idle := by
        simp only [State.cmdReady, Bool.and_eq_true, beq_iff_eq] at hready
        exact hready.2
      have hp : s.accepted.pend = [] := hinv.pend_of_idle hidle
      refine ⟨htrace, ?_⟩
      cases hrej : rejection s.pins.cmd with
      | some e =>
        rw [execute_of_rejection hrej] at hexec
        cases hexec
        exact hp
      | none =>
        obtain ⟨i, hdec, hrange⟩ := decode_of_rejection_eq_none hrej
        obtain ⟨hwf, -⟩ := decode_operands hdec
        rw [execute, hdec] at hexec
        have hpend := exec_pend hwf hrange hp hexec
        rw [encode_of_decode hdec] at hpend
        exact hpend
    · simp [hvalid, hready] at hno

/-! ### How long a datagram lasts -/

/-- The least time of a unit, in the common unit of R245: a bit period of the shortest length R241 allows (log 25), or a
delay of its microseconds. -/
def unitCost (tb : Config.TimeBase) : WireEvent → Nat
  | .frame _ => tb.fClk.num * (1000000 * (tb.baudTol.den - tb.baudTol.num))
  | .idle d => tb.fClk.num * (115200 * tb.baudTol.den * d.toNat)

/-- The least time of a list of events. -/
def lineCost (tb : Config.TimeBase) (es : List WireEvent) : Nat := ((unitsOf es).map (unitCost tb)).sum

/-- A unit lasts at least its least time. -/
theorem unitCost_le (tb : Config.TimeBase) (e : WireEvent) (k : Nat) :
    unitCost tb e ≤ unitLength tb e k * (115200 * 1000000 * tb.fClk.den * tb.baudTol.den) := by
  have hfewest := fewestEdges_le_unitLength tb e k
  cases e with
  | frame b =>
    have hdiv : 0 < Config.baud * (tb.fClk.den : Nat) * (tb.baudTol.den : Nat) :=
      Nat.mul_pos (Nat.mul_pos (by decide) tb.fClk.den.pos) tb.baudTol.den.pos
    have hle := (ceilDiv_le_iff hdiv).1 (Nat.le_trans (Nat.le_max_right _ _) hfewest)
    calc unitCost tb (.frame b) = tb.fClk.num * (tb.baudTol.den - tb.baudTol.num) * 1000000 := by
          rw [unitCost]
          ring
      _ ≤ _ := Nat.mul_le_mul_right 1000000 hle
      _ = _ := by
          rw [Config.baud]
          ring
  | idle d =>
    have hdiv : 0 < 1000000 * (tb.fClk.den : Nat) := Nat.mul_pos (by decide) tb.fClk.den.pos
    have hle := (ceilDiv_le_iff hdiv).1 (Nat.le_trans (Nat.le_max_right _ _) hfewest)
    calc unitCost tb (.idle d) = d.toNat * tb.fClk.num * (115200 * tb.baudTol.den) := by
          rw [unitCost]
          ring
      _ ≤ _ := Nat.mul_le_mul_right _ hle
      _ = _ := by ring

/-- A list of units lasts at least its least time, whatever its slack. -/
theorem sum_unitCost_le (tb : Config.TimeBase) (us : List WireEvent) : ∀ sl : List Nat,
    (us.map (unitCost tb)).sum ≤ totalEdges tb us sl * (115200 * 1000000 * tb.fClk.den * tb.baudTol.den) := by
  induction us with
  | nil => exact fun _ => Nat.zero_le _
  | cons u us ih =>
    intro sl
    rw [List.map_cons, List.sum_cons, totalEdges, Nat.add_mul]
    exact Nat.add_le_add (unitCost_le tb u _) (ih _)

theorem lineCost_frame_cons (tb : Config.TimeBase) (b : Byte) (es : List WireEvent) :
    lineCost tb (.frame b :: es) = 10 * unitCost tb (.frame b) + lineCost tb es := by
  rw [lineCost, unitsOf, List.map_append, List.sum_append, List.map_replicate, List.sum_replicate, smul_eq_mul]
  rfl

/-- An emitted delay costs its microseconds, and `Idle(0)` nothing. -/
theorem lineCost_idleEvent_append (tb : Config.TimeBase) (d : Word) (es : List WireEvent) :
    lineCost tb (idleEvent d ++ es) = unitCost tb (.idle d) + lineCost tb es := by
  by_cases hd : d = 0
  · simp [hd, idleEvent, unitCost]
  · rw [idleEvent, if_neg hd]
    simp [lineCost, unitsOf]

/-- The least time of a datagram is 80 bit periods, 7 gaps and the settle delay (R245). -/
theorem lineCost_sendEvents (tb : Config.TimeBase) (gap settle : Word) (a : Addr) (v : Word) :
    lineCost tb (sendEvents gap settle (datagram a v)) =
      tb.fClk.num * (80 * 1000000 * (tb.baudTol.den - tb.baudTol.num) +
        115200 * tb.baudTol.den * (7 * gap.toNat + settle.toNat)) := by
  have hsettle : lineCost tb (idleEvent settle) = unitCost tb (.idle settle) := by
    simpa [lineCost, unitsOf] using lineCost_idleEvent_append tb settle []
  simp only [sendEvents, datagram, datagramHead, List.cons_append, List.nil_append, List.take_succ_cons, List.take_zero,
    List.drop_succ_cons, List.drop_zero, List.map_cons, List.map_nil, List.flatten_cons, List.flatten_nil,
    List.append_assoc, lineCost_frame_cons, lineCost_idleEvent_append, hsettle]
  simp only [unitCost]
  ring

/-- Settles O43: the command ends in a datagram (`exec_sends`), whose units last at least their least time
(`sum_unitCost_le`). -/
theorem datagramCommandDuration : Obligations.DatagramCommandDuration := by
  intro c s hrej hw
  obtain ⟨i, hdec, hrange⟩ := decode_of_rejection_eq_none hrej
  obtain ⟨hwf, -⟩ := decode_operands hdec
  obtain ⟨u, a, v, hu, hgap, hsettle, htiming⟩ := exec_sends hwf hrange (by rwa [encode_of_decode hdec]) s
  refine ⟨u.sendDatagram a v, by rw [execute, hdec]; exact hu, u.sendDatagram_phase a v, ?_⟩
  obtain ⟨hbit, htimer⟩ := u.sendDatagram_atStart a v
  have hdrain : (u.sendDatagram a v).drainEdges =
      totalEdges s.timing (unitsOf (sendEvents s.gapUs s.settleUs (datagram a v))) s.timing.slack := by
    rw [State.drainEdges, hbit, htimer, u.sendDatagram_pend, State.sendDatagram_timing, hgap, hsettle, htiming,
      List.drop_zero, Nat.sub_zero]
  rw [hdrain, ← lineCost_sendEvents s.timing s.gapUs s.settleUs a v]
  refine (sum_unitCost_le s.timing _ s.timing.slack).trans_eq ?_
  ring

/-! ### The normal form of a trace -/

theorem idleBefore_append_frame (us : Nat) (os ys : List ObsEvent) (b : Byte) :
    idleBefore us (os ++ .frame b :: ys) = idleBefore us os ++ .frame b :: ys := by
  cases os with
  | nil => rfl
  | cons o os => cases o <;> rfl

theorem idleBefore_idleBefore (us us' : Nat) (os : List ObsEvent) :
    idleBefore us (idleBefore us' os) = idleBefore (us + us') os := by
  cases os with
  | nil => rfl
  | cons o os =>
    cases o with
    | frame b => rfl
    | idle us'' => simp [idleBefore, Nat.add_assoc]

theorem idleBefore_obsIdle {us : Nat} (h : us ≠ 0) (us' : Nat) : idleBefore us (obsIdle us') = obsIdle (us + us') := by
  unfold obsIdle
  by_cases h' : us' = 0
  · simp [h, h', idleBefore]
  · simp [h, h', idleBefore]

theorem toNat_ne_zero {d : Word} (h : d ≠ 0) : d.toNat ≠ 0 := fun h0 => h (BitVec.eq_of_toNat_eq h0)

/-- Idle time before a normal form keeps it one. -/
theorem merged_idleBefore {us : Nat} (h : us ≠ 0) {os : List ObsEvent} (hos : Merged os) :
    Merged (idleBefore us os) := by
  cases os with
  | nil => exact ⟨h, by simp, hos⟩
  | cons o os =>
    cases o with
    | frame b => exact ⟨h, by simp, hos⟩
    | idle us' =>
      obtain ⟨-, hnext, hrest⟩ := hos
      exact ⟨by omega, hnext, hrest⟩

theorem normalForm_idle_cons {d : Word} (h : d ≠ 0) (es : List WireEvent) :
    normalForm (.idle d :: es) = idleBefore d.toNat (normalForm es) := if_neg h

theorem normalForm_idle_zero_cons (es : List WireEvent) : normalForm (.idle 0 :: es) = normalForm es := if_pos rfl

/-- A run of `Idle` events is one `Idle` of their sum. -/
theorem normalForm_idles (ds : List Word) : normalForm (ds.map WireEvent.idle) = obsIdle (ds.map BitVec.toNat).sum := by
  induction ds with
  | nil => rfl
  | cons d ds ih =>
    rw [List.map_cons, List.map_cons, List.sum_cons]
    by_cases hd : d = 0
    · subst hd
      rw [normalForm_idle_zero_cons, ih]
      simp
    · rw [normalForm_idle_cons hd, ih, idleBefore_obsIdle (toNat_ne_zero hd)]

/-- A character cuts a trace in two. -/
theorem normalForm_append_frame (xs ys : List WireEvent) (b : Byte) :
    normalForm (xs ++ .frame b :: ys) = normalForm xs ++ .frame b :: normalForm ys := by
  induction xs with
  | nil => rfl
  | cons x xs ih =>
    cases x with
    | frame b' => simp [normalForm, ih]
    | idle d =>
      simp only [List.cons_append, normalForm, ih, idleBefore_append_frame]
      split <;> rfl

theorem merged_normalForm (xs : List WireEvent) : Merged (normalForm xs) := by
  induction xs with
  | nil => trivial
  | cons x xs ih =>
    cases x with
    | frame b => exact ih
    | idle d =>
      by_cases hd : d = 0
      · subst hd
        exact ih
      · rw [normalForm_idle_cons hd]
        exact merged_idleBefore (toNat_ne_zero hd) ih

/-- What stands before in a trace does not tell two ends with one normal form apart. -/
theorem normalForm_append_congr {ys zs : List WireEvent} (h : normalForm ys = normalForm zs) (xs : List WireEvent) :
    normalForm (xs ++ ys) = normalForm (xs ++ zs) := by
  induction xs with
  | nil => exact h
  | cons x xs ih => cases x <;> simp only [List.cons_append, normalForm, ih]

/-- Two adjacent `Idle` events are one of their sum. -/
theorem normalForm_idle_idle {a b : Word} (h : a.toNat + b.toNat < 2 ^ 32) (ys : List WireEvent) :
    normalForm (.idle a :: .idle b :: ys) = normalForm (.idle (a + b) :: ys) := by
  have hsum : (a + b).toNat = a.toNat + b.toNat := BitVec.toNat_add_of_lt h
  by_cases ha : a = 0
  · subst ha
    rw [normalForm_idle_zero_cons, zero_add]
  by_cases hb : b = 0
  · subst hb
    rw [normalForm_idle_cons ha, normalForm_idle_zero_cons, add_zero, normalForm_idle_cons ha]
  have hab : a + b ≠ 0 := by
    intro h0
    rw [h0] at hsum
    exact toNat_ne_zero ha (Nat.eq_zero_of_add_eq_zero_right hsum.symm)
  rw [normalForm_idle_cons ha, normalForm_idle_cons hb, normalForm_idle_cons hab, idleBefore_idleBefore, hsum]

/-- Settles O44, by induction on the trace: the runs, the cuts, the form, and the local merges. -/
theorem normalFormMergesIdles : Obligations.NormalFormMergesIdles :=
  ⟨normalForm_idles, normalForm_append_frame, merged_normalForm, fun xs ys _ _ hab =>
    ⟨normalForm_append_congr (normalForm_idle_idle hab ys) xs,
      normalForm_append_congr (normalForm_idle_zero_cons ys) xs⟩⟩

/-! ### A host that sends the bytes itself -/

/-- A well-formed instruction's command performs it. -/
theorem execute_encode {i : Instr} (h : i.wellFormed = true) (s : State) : execute (encode i) s = exec i s := by
  rw [execute, decodeOfEncodeIsTheInstruction i h]

theorem wrreg_word (a : Addr) : mkWord false a 0 0x2 = 0x00000002 ||| (a.setWidth 32 <<< 8) := by
  simp [mkWord, BitVec.or_comm]

/-- Without a gap a datagram is its characters and the settle delay. -/
theorem sendEvents_without_gap (settle : Word) (bytes : List Byte) :
    sendEvents 0 settle bytes = bytes.map .frame ++ idleEvent settle := by
  have hhead : ((bytes.take 7).map fun b => WireEvent.frame b :: idleEvent 0).flatten = (bytes.take 7).map .frame := by
    rw [show (fun b => WireEvent.frame b :: idleEvent 0) = fun b => [.frame b] from rfl]
    induction bytes.take 7 <;> simp_all
  rw [sendEvents, hhead, ← List.map_append, List.take_append_drop]

/-- Without a gap TXB of a byte, performed whole, puts its character on the trace. -/
theorem performWhole_txb {s : State} (hgap : s.gapUs = 0) (b : Byte) :
    performWhole s ⟨0x00000006, b.setWidth 32⟩ =
      { s with trace := s.trace ++ [.frame b], pend := [], phase := .idle, bitIdx := 0, timer := 0 } := by
  have hb : (b.setWidth 32).toNat < 256 := by
    have := b.isLt
    simp
    omega
  have hexec := (execute_encode (i := .txb (b.setWidth 32)) rfl s).trans (exec_txb hb s)
  have hidle : idleEvent s.gapUs = [] := if_pos hgap
  rw [BitVec.setWidth_setWidth_of_le _ (by decide), BitVec.setWidth_eq, hidle] at hexec
  exact performWhole_of_execute hexec

/-- Without a gap the bytes, performed whole one after another, put their characters on the trace. -/
theorem foldl_performWhole_txb (bytes : List Byte) : ∀ {s : State}, s.gapUs = 0 → s.pend = [] →
    ((bytes.map fun b : Byte => Command.mk 0x00000006 (b.setWidth 32)).foldl performWhole s).trace =
      s.trace ++ bytes.map .frame ∧
    ((bytes.map fun b : Byte => Command.mk 0x00000006 (b.setWidth 32)).foldl performWhole s).pend = [] := by
  induction bytes with
  | nil => exact fun _ hp => ⟨(List.append_nil _).symm, hp⟩
  | cons b bytes ih =>
    intro s hgap hp
    rw [List.map_cons, List.foldl_cons, performWhole_txb hgap, List.map_cons]
    obtain ⟨htrace, hpend⟩ := ih (s := { s with
      trace := s.trace ++ [.frame b], pend := [], phase := .idle, bitIdx := 0, timer := 0 }) hgap rfl
    exact ⟨by rw [htrace, List.append_assoc]; rfl, hpend⟩

/-- WAIT, performed whole, puts its delay on the trace. -/
theorem performWhole_wait_trace {s : State} (hp : s.pend = []) (d : Word) :
    (performWhole s ⟨0x00000009, d⟩).trace = s.trace ++ idleEvent d := by
  have hexec : execute ⟨0x00000009, d⟩ s = exec (.wait d) s := execute_encode (i := .wait d) rfl s
  obtain ⟨hzero, hpos⟩ := waitHoldsTheLineIdle d s
  by_cases hd : d = 0
  · subst hd
    rw [performWhole_of_execute (hexec.trans hzero), State.finished, hp]
    rfl
  · rw [performWhole_of_execute (hexec.trans (hpos hd)), idleEvent, if_neg hd]
    rfl

/-- WRREG, performed whole, puts the events of its datagram on the trace. -/
theorem performWhole_wrreg_trace {a : Addr} (ha : isChipAddr a = true) (d : Word) (s : State) :
    (performWhole s ⟨0x00000002 ||| (a.setWidth 32 <<< 8), d⟩).trace =
      s.trace ++ sendEvents s.gapUs s.settleUs (datagram a d) := by
  have hexec : execute ⟨0x00000002 ||| (a.setWidth 32 <<< 8), d⟩ s = .next (s.sendDatagram a d) := by
    rw [← wrreg_word]
    exact (execute_encode (i := .wrreg a d) ha s).trans (if_pos ha)
  rw [performWhole_of_execute hexec, State.finished, State.sendDatagram_trace, State.sendDatagram_pend]

/-- Settles O45: without a gap both traces are the eight characters and the settle delay. -/
theorem hostBuiltDatagramLooksTheSame : Obligations.HostBuiltDatagramLooksTheSame := by
  intro a d s ha hgap hp
  obtain ⟨htrace, hpend⟩ := foldl_performWhole_txb (datagram a d) hgap hp
  rw [performWhole_wrreg_trace ha, hgap, sendEvents_without_gap, hostBuilt, List.foldl_append, List.foldl_cons,
    List.foldl_nil, performWhole_wait_trace hpend, htrace, List.append_assoc]

end Sys2Proof.Machine
end

section
/-! PROOFS. The assembler of the host (30_encoding.md R94, R96), which runs. -/

namespace Sys2Proof.Machine

/-- Settles O47: the assembler computes the printed commands of these lines. -/
theorem pseudoInstructionsExpand : Obligations.PseudoInstructionsExpand :=
  ⟨by decide, by decide, by decide, by decide, by decide, by decide, by decide, by decide⟩

end Sys2Proof.Machine
end
